-- ==== Sys2Proof/Word.lean ====
section
/-!
DEFINITION. The two word types of the config4 bytecode core.
-/

namespace Sys2Proof

/-- A byte of the instruction stream, a field of a record: 8 bits, unsigned (00 R8, 30 R80). -/
abbrev Byte := BitVec 8

/-- The content of one memory cell: 64 bits, unsigned, XLEN = 64 (00 R6, 10 R21, 92 D1). -/
abbrev Word := BitVec 64

end Sys2Proof
end

