-- ==== Sys2Proof/Config.lean ====
section
/-!
DEFINITION. The parameters of the hardware (00 R6). The core leaves no value free (93 Part 1: nothing is
"any value"), so no constant here is opaque.
-/

namespace Sys2Proof

/-- `N`, the number of memory cells (00 R6, 10 R20). -/
def Config.cellCount : Nat := 256

/-- `ILEN`, the length of a record in bytes (00 R6, 30 R85). -/
def Config.recordBytes : Nat := 6

/-- `LEN_MAX`, the capacity of the instruction store: the spec's open parameter, at its default "unbounded"
(92 D14, 93 U15). DESIGN CHOICE (log 7): no rule says what happens to a longer stream, so nothing depends on it
beyond `Config.withinCapacity`. -/
def Config.lenMax : Option Nat := none

/-- Whether a stream of `len` bytes fits the instruction store; every length does at the default (92 D14). -/
def Config.withinCapacity (len : Nat) : Bool :=
  match Config.lenMax with
  | none => true
  | some k => decide (len ≤ k)

end Sys2Proof
end

