-- ==== Sys2Proof/Syntax.lean ====
section
/-!
DEFINITION. The instruction set: one constructor per row of spec/opcode_table.json.
Every constructor keeps all five operand fields of the record, the ignored ones too, so that an instruction and
its record are the same information (30 R80, R82, R89; log 8).
-/

namespace Sys2Proof

/-- The config4 instruction set, base, no extensions (00 R2, 30 R86). Fields are in record order. -/
inductive Instr where
  /-- Set, opcode 98 (41 R130): `op1` immediate, `op2` destination cell. -/
  | set (op1 op2 op3 op4 op5 : Byte)
  /-- LoadIndirectOffset, opcode 19 (41 R133): `op1` destination, `op2` pointer cell, `op3` offset. -/
  | loadIndirectOffset (op1 op2 op3 op4 op5 : Byte)
  /-- StoreIndirect, opcode 5 (41 R137): `op1` pointer cell, `op2` source cell. -/
  | storeIndirect (op1 op2 op3 op4 op5 : Byte)
  /-- ByteSwap64, opcode 22 (42 R155): `op1` destination cell, `op2` source cell. -/
  | byteSwap64 (op1 op2 op3 op4 op5 : Byte)
  deriving DecidableEq, Repr

end Sys2Proof
end

