-- ==== Sys2Proof/WellFormed.lean ====
section
/-!
DEFINITION. What is checked before the hardware sees a byte.

An `Instr` needs no check: its fields are 8-bit by type and every value of every field is legal (30 R83, R88, R89),
so every instruction is well-formed and statements range over all of them. What can be ill-formed is the assembly
line software writes, whose operands are plain integers that must lie in 0 to 255 (30 R91), and the length of a
stream, where the spec gives advice and no check (70 R202, 90 C1).
-/

namespace Sys2Proof

/-- One line of the spec's assembly (30 R91): operands in field order, as the unsigned integers written. -/
inductive AsmStmt where
  /-- `Set op1, op2` -/
  | set (op1 op2 : Nat)
  /-- `LoadIndirectOffset op1, op2, op3` -/
  | loadIndirectOffset (op1 op2 op3 : Nat)
  /-- `StoreIndirect op1, op2` -/
  | storeIndirect (op1 op2 : Nat)
  /-- `ByteSwap64 op1, op2` -/
  | byteSwap64 (op1 op2 : Nat)
  /-- `.rec b0 b1 b2 b3 b4 b5`: a raw record -/
  | rawRecord (b0 b1 b2 b3 b4 b5 : Nat)
  /-- `.byte b`: one byte of a trailing partial record -/
  | rawByte (b : Nat)
  deriving DecidableEq, Repr

/-- The integers of an assembly line, in the order written. -/
def AsmStmt.operands : AsmStmt → List Nat
  | .set a b => [a, b]
  | .loadIndirectOffset a b c => [a, b, c]
  | .storeIndirect a b => [a, b]
  | .byteSwap64 a b => [a, b]
  | .rawRecord b0 b1 b2 b3 b4 b5 => [b0, b1, b2, b3, b4, b5]
  | .rawByte b => [b]

/-- Every operand of an assembly line is an unsigned integer 0 to 255 (30 R91). -/
def AsmStmt.wellFormed (a : AsmStmt) : Bool := a.operands.all fun n => decide (n ≤ 255)

/-- The advice to a stream's author: a whole number of records (70 R202, 90 C1). The hardware does not check it. -/
def wholeRecords (prog : List Byte) : Bool := decide (prog.length % Config.recordBytes = 0)

end Sys2Proof
end

