-- ==== Sys2Proof/Decode.lean ====
section
/-!
DEFINITION. From bytes to instructions and back: the decoder (30 R80, R83), the selection by opcode byte
(30 R86, R88, 40 R114), the encoder, the 48-bit presentation (30 R81), and the assembler and disassembler
(30 R91, R93).
-/

namespace Sys2Proof

/-- The six unsigned 8-bit fields the Instruction Decoder makes of a record, whatever their values (30 R80, R83). -/
structure Record where
  opcode : Byte
  op1 : Byte
  op2 : Byte
  op3 : Byte
  op4 : Byte
  op5 : Byte
  deriving DecidableEq, Repr

/-- Why a list of bytes is no instruction. -/
inductive DecodeReject where
  /-- Not exactly six bytes; the Execution Loop never asks for this (30 R83, 40 R111). That a longer list is
  rejected too is a DESIGN CHOICE: R83 speaks of shorter ones only (log 15). -/
  | notARecord (length : Nat)
  /-- A complete record whose opcode byte is none of the four (30 R88). -/
  | unknownOpcode (opcode : Byte)
  deriving DecidableEq, Repr

/-- The record as it stands in the stream: six bytes, opcode first (20 R54, 30 R80). -/
def Record.bytes (r : Record) : List Byte := [r.opcode, r.op1, r.op2, r.op3, r.op4, r.op5]

/-- Six bytes unpacked "in the order received" (30 R83); no other list is a record (30 R85; log 15). -/
def Record.ofBytes : List Byte → Option Record
  | [b0, b1, b2, b3, b4, b5] => some ⟨b0, b1, b2, b3, b4, b5⟩
  | _ => none

/-- The instruction the opcode byte selects; `none` is the dispatcher's "unrecognized" (30 R86, R88, 40 R114). -/
def Record.toInstr (r : Record) : Option Instr :=
  if r.opcode = 98#8 then some (.set r.op1 r.op2 r.op3 r.op4 r.op5)
  else if r.opcode = 19#8 then some (.loadIndirectOffset r.op1 r.op2 r.op3 r.op4 r.op5)
  else if r.opcode = 5#8 then some (.storeIndirect r.op1 r.op2 r.op3 r.op4 r.op5)
  else if r.opcode = 22#8 then some (.byteSwap64 r.op1 r.op2 r.op3 r.op4 r.op5)
  else none

/-- Decoding of any bytes: an instruction, or a rejection by name (30 R83, R88). -/
def decode (bytes : List Byte) : Except DecodeReject Instr :=
  match Record.ofBytes bytes with
  | none => .error (.notARecord bytes.length)
  | some r =>
    match r.toInstr with
    | none => .error (.unknownOpcode r.opcode)
    | some i => .ok i

/-- The opcode byte of an instruction (30 R86). -/
def Instr.opcode : Instr → Byte
  | .set .. => 98#8
  | .loadIndirectOffset .. => 19#8
  | .storeIndirect .. => 5#8
  | .byteSwap64 .. => 22#8

/-- The record an instruction stands in (30 R80, R86). -/
def Instr.record : Instr → Record
  | .set a b c d e => ⟨98#8, a, b, c, d, e⟩
  | .loadIndirectOffset a b c d e => ⟨19#8, a, b, c, d, e⟩
  | .storeIndirect a b c d e => ⟨5#8, a, b, c, d, e⟩
  | .byteSwap64 a b c d e => ⟨22#8, a, b, c, d, e⟩

/-- The bytes of an instruction in stream order (30 R80, R86). -/
def encode (i : Instr) : List Byte := i.record.bytes

/-- The 48-bit presentation of a record, its first byte most significant (30 R81, 92 D3). -/
def Record.word (r : Record) : BitVec 48 := r.opcode ++ r.op1 ++ r.op2 ++ r.op3 ++ r.op4 ++ r.op5

/-- The record a 48-bit word presents: opcode = word[47:40], ..., op5 = word[7:0] (30 R81). -/
def Record.ofWord (w : BitVec 48) : Record :=
  ⟨w.extractLsb' 40 8, w.extractLsb' 32 8, w.extractLsb' 24 8, w.extractLsb' 16 8, w.extractLsb' 8 8, w.extractLsb' 0 8⟩

/-- The record whose table word has the low `nbits` bits of `w` and zeros above, numbered as
spec/opcode_table.json numbers a row: one 48-bit word, bit 0 the least significant bit of op5 (30 R81; log 5). -/
def Record.ofTableWord (nbits w : Nat) : Record := Record.ofWord (BitVec.ofNat 48 (w % 2 ^ nbits))

/-- The instruction the decoder reads from a table word laid out as the hardware stores it (log 5). -/
def decodeTableWord (nbits w : Nat) : Option Instr := (decode (Record.ofTableWord nbits w).bytes).toOption

/-- The bytes one assembly line stands for: ignored fields are written 0 (30 R89, R91). -/
def assemble (a : AsmStmt) : List Byte :=
  match a with
  | .set a b => [98#8, BitVec.ofNat 8 a, BitVec.ofNat 8 b, 0#8, 0#8, 0#8]
  | .loadIndirectOffset a b c => [19#8, BitVec.ofNat 8 a, BitVec.ofNat 8 b, BitVec.ofNat 8 c, 0#8, 0#8]
  | .storeIndirect a b => [5#8, BitVec.ofNat 8 a, BitVec.ofNat 8 b, 0#8, 0#8, 0#8]
  | .byteSwap64 a b => [22#8, BitVec.ofNat 8 a, BitVec.ofNat 8 b, 0#8, 0#8, 0#8]
  | .rawRecord b0 b1 b2 b3 b4 b5 =>
    [BitVec.ofNat 8 b0, BitVec.ofNat 8 b1, BitVec.ofNat 8 b2, BitVec.ofNat 8 b3, BitVec.ofNat 8 b4, BitVec.ofNat 8 b5]
  | .rawByte b => [BitVec.ofNat 8 b]

/-- The stream a list of assembly lines stands for, one statement per line (30 R91). -/
def assembleAll (lines : List AsmStmt) : List Byte := lines.flatMap assemble

/-- How a record prints: the syntax of R91 when its opcode is known and its ignored fields are all 0, `.rec`
with all six bytes otherwise (30 R93). -/
def disassemble (r : Record) : AsmStmt :=
  if r.opcode = 98#8 ∧ r.op3 = 0#8 ∧ r.op4 = 0#8 ∧ r.op5 = 0#8 then .set r.op1.toNat r.op2.toNat
  else if r.opcode = 19#8 ∧ r.op4 = 0#8 ∧ r.op5 = 0#8 then
    .loadIndirectOffset r.op1.toNat r.op2.toNat r.op3.toNat
  else if r.opcode = 5#8 ∧ r.op3 = 0#8 ∧ r.op4 = 0#8 ∧ r.op5 = 0#8 then .storeIndirect r.op1.toNat r.op2.toNat
  else if r.opcode = 22#8 ∧ r.op3 = 0#8 ∧ r.op4 = 0#8 ∧ r.op5 = 0#8 then .byteSwap64 r.op1.toNat r.op2.toNat
  else .rawRecord r.opcode.toNat r.op1.toNat r.op2.toNat r.op3.toNat r.op4.toNat r.op5.toNat

end Sys2Proof
end

