-- ==== Sys2Proof/Machine/State.lean ====
section
/-!
DEFINITION. The state of the core as plain data (10 R32), the reasons a step or a host request can stop, and the
state after reset (10 R33).
-/

namespace Sys2Proof.Machine

/-- `status`, where the run stands (10 R25). The reserved value 3 has no constructor (93 U14). -/
inductive Status where
  | run
  | done
  | fail
  deriving DecidableEq, Repr

/-- `cause`, the fault that ended the run (10 R26). The reserved value 3 has no constructor (93 U14). -/
inductive Cause where
  | none
  | unknownOpcode
  | outOfRangeAddress
  deriving DecidableEq, Repr

/-- The two faults an instruction can raise (60 R170). Raising one is a transition of the machine (60 R176), not a
stop of the model: `State.raise`. -/
inductive Raised where
  | unknownOpcode
  | outOfRangeAddress
  deriving DecidableEq, Repr

/-- The Memory Store: pairs of a cell index and the cell's 64-bit value (10 R20, R21). Canonical form
(`Memory.wf`): indices strictly rising and below 256, no entry 0, which is what an unlisted cell reads (10 R35;
log 4). -/
abbrev Memory := List (Nat × Word)

/-- The state of the core: `(m, pc, status, cause)` (10 R32) and the input stream `prog`, which no step changes
(10 R30; log 1). -/
structure State where
  /-- the 256 memory cells (10 R20) -/
  m : Memory
  /-- index of the next record (10 R23) -/
  pc : Nat
  /-- where the run stands (10 R25) -/
  status : Status
  /-- the fault that ended the run (10 R26) -/
  cause : Cause
  /-- the instruction stream, an input held here (10 R30; log 1) -/
  prog : List Byte
  deriving DecidableEq, Repr

/-- Why `step` has no next state. -/
inductive Fault where
  /-- Raised by `step` when `status` is DONE: that state has no step (00 R10, 40 R110; log 3). Safe. -/
  | noStepAfterDone
  /-- Raised by `step` when `status` is FAIL: that state has no step (00 R10, 40 R110; log 3). Safe. -/
  | noStepAfterFail
  deriving DecidableEq, Repr

/-- What the model gives no meaning to. -/
inductive Refusal where
  /-- An instruction without a meaning yet; `exec` has no such arm, so nothing raises it. Safe. -/
  | notModelled (mnemonic : String)
  /-- Raised by a snapshot read while `status` is RUN or FAIL (70 R208 (a)). Safe. -/
  | snapshotBeforeDone
  /-- Raised by a snapshot read whose range is not `0 <= start <= end <= 256` (70 R208 (b)). Safe. -/
  | snapshotRange
  deriving DecidableEq, Repr

/-- The state with another Memory Store. -/
def State.withM (s : State) (m : Memory) : State := { s with m := m }

/-- The state with another program counter. -/
def State.withPc (s : State) (pc : Nat) : State := { s with pc := pc }

/-- The state with another run status. -/
def State.withStatus (s : State) (st : Status) : State := { s with status := st }

/-- The state with another fault cause. -/
def State.withCause (s : State) (c : Cause) : State := { s with cause := c }

/-- The state with another instruction stream. -/
def State.withProg (s : State) (prog : List Byte) : State := { s with prog := prog }

/-- The state right after reset (10 R33), with no stream supplied yet (log 2). -/
def State.reset : State := { m := [], pc := 0, status := .run, cause := .none, prog := [] }

end Sys2Proof.Machine
end

