-- ==== Sys2Proof/Machine/Ops.lean ====
section
/-!
DEFINITION. The named operations every meaning is made of: reading and writing cells (00 R9, 20 R52), fetching a
record (40 R112), and the three ways a step ends: retire (40 R116), halt (40 R111), fault entry (60 R176).
-/

namespace Sys2Proof.Machine

/-- What an index of the Memory Store holds; an unlisted one holds 0 (10 R33, R35). -/
def Memory.read : Memory → Nat → Word
  | [], _ => 0#64
  | (b, w) :: rest, a => if b = a then w else Memory.read rest a

/-- Put an entry at its place in rising order. -/
def Memory.insert : Memory → Nat → Word → Memory
  | [], a, v => [(a, v)]
  | (b, w) :: rest, a, v => if a < b then (a, v) :: (b, w) :: rest else (b, w) :: Memory.insert rest a v

/-- Give an index a value and change no other (00 R9): its old entry goes; a new one is listed unless it is 0. -/
def Memory.write (m : Memory) (a : Nat) (v : Word) : Memory :=
  let others := m.filter fun c => decide (c.1 ≠ a)
  if v = 0#64 then others else Memory.insert others a v

/-- Indices strictly rise from `low` on and stay below 256, and no listed value is 0. -/
def Memory.wfFrom : Nat → Memory → Bool
  | _, [] => true
  | low, (a, v) :: rest =>
    decide (low ≤ a) && decide (a < Config.cellCount) && decide (v ≠ 0#64) && Memory.wfFrom (a + 1) rest

/-- The canonical form of the Memory Store: equal stores are equal lists (log 4). -/
def Memory.wf (m : Memory) : Bool := Memory.wfFrom 0 m

/-- "an index in [0, N)": the range an indirect address must lie in (20 R52). -/
def inStore (addr : Int) : Bool := decide (0 ≤ addr) && decide (addr < Config.cellCount)

/-- `MemRead(addr, 1)`: the indirect cell read; `none` where it raises OutOfRangeAddress (00 R9, 20 R52). -/
def State.memRead (s : State) (addr : Int) : Option Word :=
  if inStore addr then some (Memory.read s.m addr.toNat) else none

/-- `MemWrite(addr, 1, v)`: the indirect cell write; `none` where it raises OutOfRangeAddress (00 R9, 20 R52). -/
def State.memWrite (s : State) (addr : Int) (v : Word) : Option State :=
  if inStore addr then some (s.withM (Memory.write s.m addr.toNat v)) else none

/-- The record at stream offset `6 * pc`, if at least six bytes remain there (40 R111, R112). -/
def State.fetch (s : State) : Option Record :=
  match s.prog.drop (Config.recordBytes * s.pc) with
  | b0 :: b1 :: b2 :: b3 :: b4 :: b5 :: _ => some ⟨b0, b1, b2, b3, b4, b5⟩
  | _ => none

/-- Retire: the next record in the stream is the next instruction (40 R116). -/
def State.retire (s : State) : State := s.withPc (s.pc + 1)

/-- The halt step: `status <- DONE` and nothing else (40 R111). -/
def State.halt (s : State) : State := s.withStatus .done

/-- The cause a raised fault records (60 R170). -/
def Raised.cause : Raised → Cause
  | .unknownOpcode => .unknownOpcode
  | .outOfRangeAddress => .outOfRangeAddress

/-- Fault entry: `m` and `pc` unchanged, `status <- FAIL`, `cause <- code of F` (60 R176). There is no return from
it (60 R178). -/
def State.raise (s : State) (f : Raised) : State := (s.withStatus .fail).withCause f.cause

/-- The reset event: the reset state of R33 from any state, the stream staying in place (70 R200, R201; log 2). -/
def State.applyReset (s : State) : State := State.reset.withProg s.prog

end Sys2Proof.Machine
end

