-- ==== Sys2Proof/Machine/Operands.lean ====
section
/-!
DEFINITION. The four operand forms (41 R140), the effective addresses (41 R134, R137), and the byte-swap primitive
(42 R150, R151).
-/

namespace Sys2Proof.Machine

/-- `zext_64`: the 64-bit value equal to a byte as an unsigned integer (00 R8, 30 R84). -/
def zext64 (b : Byte) : Word := b.setWidth 64

/-- Immediate operand: the field's value, zero-extended (41 R140, 30 R84). -/
def immediate (field : Byte) : Word := zext64 field

/-- Direct operand read `x[i]`: cannot fault, every field value being an index (00 R9, 20 R51). -/
def State.directRead (s : State) (field : Byte) : Word := Memory.read s.m field.toNat

/-- Direct operand write `x[i] <- v` (00 R9, 20 R51). -/
def State.directWrite (s : State) (field : Byte) (v : Word) : State := s.withM (Memory.write s.m field.toNat v)

/-- The address of the indirect form: a cell's content as an integer (41 R137, R140). -/
def indirectAddress (pointer : Word) : Int := (pointer.toNat : Int)

/-- The address of the indirect form with offset: the exact sum, never wrapped (41 R134, 20 R52). -/
def indirectOffsetAddress (base : Word) (offset : Byte) : Int := (base.toNat : Int) + (offset.toNat : Int)

/-- `bswap64` on the values a cell can hold: byte k of the result is byte 7-k of the operand (42 R150). -/
def bswap64 (v : Word) : Word :=
  v.extractLsb' 0 8 ++ v.extractLsb' 8 8 ++ v.extractLsb' 16 8 ++ v.extractLsb' 24 8 ++
    v.extractLsb' 32 8 ++ v.extractLsb' 40 8 ++ v.extractLsb' 48 8 ++ v.extractLsb' 56 8

/-- `bswap64` on all integers, with the sentinel -1 outside [0, 2^64 - 1] (42 R151). For the primitive by itself:
no instruction calls it, because a cell holds no other value (42 R153; log 9). -/
def bswap64Int (v : Int) : Int :=
  if 0 ≤ v ∧ v ≤ 2 ^ 64 - 1 then ((bswap64 (BitVec.ofInt 64 v)).toNat : Int) else -1

end Sys2Proof.Machine
end

