-- ==== Sys2Proof/Machine/ByteSwap.lean ====
section
/-!
DEFINITION. The one instruction that computes: ByteSwap64 (42_byteswap.md).
-/

namespace Sys2Proof.Machine

/-- ByteSwap64: `x[op1] <- bswap64(x[op2])`, then retire; op3, op4, op5 ignored; no exception (42 R155). -/
def execByteSwap64 (op1 op2 _op3 _op4 _op5 : Byte) (s : State) : Host.Outcome State Fault Refusal :=
  .next (s.directWrite op1 (bswap64 (s.directRead op2))).retire

end Sys2Proof.Machine
end

