-- ==== Sys2Proof/Machine/DataMovement.lean ====
section
/-!
DEFINITION. The three instructions that move values without changing them (41_data_movement.md).
-/

namespace Sys2Proof.Machine

/-- Set: `x[op2] <- zext_64(op1)`, then retire; op3, op4, op5 ignored; no exception (41 R130). -/
def execSet (op1 op2 _op3 _op4 _op5 : Byte) (s : State) : Host.Outcome State Fault Refusal :=
  .next (s.directWrite op2 (immediate op1)).retire

/-- LoadIndirectOffset: `x[op1] <- MemRead(x[op2] + op3, 1)`, then retire; OutOfRangeAddress with nothing written
where the address is outside [0, 255]; op4, op5 ignored (41 R133, R134). -/
def execLoadIndirectOffset (op1 op2 op3 _op4 _op5 : Byte) (s : State) : Host.Outcome State Fault Refusal :=
  match s.memRead (indirectOffsetAddress (s.directRead op2) op3) with
  | some v => .next (s.directWrite op1 v).retire
  | none => .next (s.raise .outOfRangeAddress)

/-- StoreIndirect: `MemWrite(x[op1], 1, x[op2])`, then retire; OutOfRangeAddress with nothing written where the
address is outside [0, 255]; op3, op4, op5 ignored (41 R137). -/
def execStoreIndirect (op1 op2 _op3 _op4 _op5 : Byte) (s : State) : Host.Outcome State Fault Refusal :=
  match s.memWrite (indirectAddress (s.directRead op1)) (s.directRead op2) with
  | some t => .next t.retire
  | none => .next (s.raise .outOfRangeAddress)

end Sys2Proof.Machine
end

