-- ==== Sys2Proof/Machine/Dispatch.lean ====
section
/-!
DEFINITION. One arm per instruction (40 R114).
-/

namespace Sys2Proof.Machine

def exec (i : Instr) (s : State) : Host.Outcome State Fault Refusal :=
  match i with
  | .set op1 op2 op3 op4 op5 => Sys2Proof.Machine.execSet op1 op2 op3 op4 op5 s
  | .loadIndirectOffset op1 op2 op3 op4 op5 => Sys2Proof.Machine.execLoadIndirectOffset op1 op2 op3 op4 op5 s
  | .storeIndirect op1 op2 op3 op4 op5 => Sys2Proof.Machine.execStoreIndirect op1 op2 op3 op4 op5 s
  | .byteSwap64 op1 op2 op3 op4 op5 => Sys2Proof.Machine.execByteSwap64 op1 op2 op3 op4 op5 s

end Sys2Proof.Machine
end

