-- ==== Sys2Proof/Machine/Loop.lean ====
section
/-!
DEFINITION. The Execution Loop's one step on a running core (40 R110), and what stands for "no step" in a state
whose run has ended.
-/

namespace Sys2Proof.Machine

/-- Actions 3 to 5 of R110 on a fetched record: dispatch, run it, or raise UnknownOpcode (40 R113 to R116). -/
def State.runRecord (s : State) (r : Record) : Host.Outcome State Fault Refusal :=
  match r.toInstr with
  | some i => exec i s
  | none => .next (s.raise .unknownOpcode)

/-- A step while `status = RUN`: the end-of-stream test first, then the record at `pc` (40 R110, R111, 60 R175). -/
def State.stepRunning (s : State) : Host.Outcome State Fault Refusal :=
  match s.fetch with
  | none => .next s.halt
  | some r => s.runRecord r

end Sys2Proof.Machine
end

