-- ==== Sys2Proof/Machine/Step.lean ====
section
/-!
DEFINITION. One step of the core (40 R110), and the state that runs a given table word next.
-/

namespace Sys2Proof.Machine

/-- One step: defined while `status = RUN`; DONE and FAIL have none (00 R10, 40 R110; log 3). -/
def step (s : State) : Host.Outcome State Fault Refusal :=
  match s.status with
  | .run => s.stepRunning
  | .done => .fault .noStepAfterDone
  | .fail => .fault .noStepAfterFail

/-- `s` with the record of a table word in the stream at index `pc`, and running, so that the next step runs it:
the bytes before it and after it stay as they are, a stream too short to reach it is filled up with zeros (log 6). -/
def State.withFetchWord (s : State) (nbits w : Nat) : State :=
  let at6 := Config.recordBytes * s.pc
  let before := s.prog.take at6
  let gap := List.replicate (at6 - s.prog.length) 0#8
  let after := s.prog.drop (at6 + Config.recordBytes)
  ((s.withProg (before ++ gap ++ (Record.ofTableWord nbits w).bytes ++ after)).withStatus .run).withCause .none

end Sys2Proof.Machine
end

