-- ==== Sys2Proof/Machine/Flags.lean ====
section
/-!
DEFINITION. The hardware has no condition flag (10 R27). What the host reads as numbers are the two 2-bit registers
`status` and `cause`; this file gives their encodings (10 R25, R26).
-/

namespace Sys2Proof.Machine

/-- The 2-bit encoding of `status` (10 R25, 92 D5). -/
def Status.code : Status → BitVec 2
  | .run => 0#2
  | .done => 1#2
  | .fail => 2#2

/-- The 2-bit encoding of `cause` (10 R26, 92 D5). -/
def Cause.code : Cause → BitVec 2
  | .none => 0#2
  | .unknownOpcode => 1#2
  | .outOfRangeAddress => 2#2

end Sys2Proof.Machine
end

