-- ==== Sys2Proof/Machine/HostPort.lean ====
section
/-!
DEFINITION. The host's side of the core at transaction level (70 R203, R204): supplying a stream and resetting,
reading `status`, `cause` and `pc`, and the snapshot read port (70 R206 to R209). What the host cannot do has no
request here: no request writes a cell, or changes `prog` without resetting (70 R203).
-/

namespace Sys2Proof.Machine

/-- The start of a run: `prog` in place, complete, then reset (70 R201, R203; log 2). -/
def State.startRun (prog : List Byte) : State := State.reset.withProg prog

/-- The pairs `(a, m[a])` for `count` addresses from `first` on, as unsigned integers (70 R206). -/
def snapshotRows (m : Memory) (first count : Nat) : List (Nat × Nat) :=
  (List.range' first count).map fun a => (a, (Memory.read m a).toNat)

/-- The snapshot read with range `[first, last)`; refused unless `status = DONE` and `0 <= first <= last <= 256`
(70 R206, R208; log 11). -/
def State.snapshot (s : State) (first last : Int) : Except Refusal (List (Nat × Nat)) :=
  if s.status ≠ .done then .error .snapshotBeforeDone
  else if 0 ≤ first ∧ first ≤ last ∧ last ≤ Config.cellCount then
    .ok (snapshotRows s.m first.toNat (last - first).toNat)
  else .error .snapshotRange

/-- What the host may ask of the core (70 R203, R204). -/
inductive HostRequest where
  /-- supply a stream, then reset: the start of a run (70 R201) -/
  | start (prog : List Byte)
  /-- the reset event, the stream staying in place (70 R200) -/
  | reset
  /-- read `status` (10 R36) -/
  | readStatus
  /-- read `cause` (10 R36) -/
  | readCause
  /-- read `pc` (10 R36) -/
  | readPc
  /-- a snapshot read of `[first, last)` (70 R206) -/
  | snapshot (first last : Int)
  deriving DecidableEq, Repr

/-- What the core answers. -/
inductive HostReply where
  /-- an event taken; nothing is returned -/
  | taken
  /-- the 2-bit code of `status` (10 R25) -/
  | statusCode (code : BitVec 2)
  /-- the 2-bit code of `cause` (10 R26) -/
  | causeCode (code : BitVec 2)
  /-- the value of `pc` (10 R36) -/
  | pcValue (pc : Nat)
  /-- the rows of a snapshot (70 R206) -/
  | rows (pairs : List (Nat × Nat))
  deriving DecidableEq, Repr

/-- The core's answer to a host request and the state after it; a refused read returns nothing and changes nothing
(70 R208, R209). -/
def State.host (s : State) (q : HostRequest) : Except Refusal (HostReply × State) :=
  match q with
  | .start prog => .ok (.taken, State.startRun prog)
  | .reset => .ok (.taken, s.applyReset)
  | .readStatus => .ok (.statusCode s.status.code, s)
  | .readCause => .ok (.causeCode s.cause.code, s)
  | .readPc => .ok (.pcValue s.pc, s)
  | .snapshot first last =>
    match s.snapshot first last with
    | .ok pairs => .ok (.rows pairs, s)
    | .error r => .error r

end Sys2Proof.Machine
end

