-- ==== Sys2Proof/Machine/Run.lean ====
section
/-!
DEFINITION. A run from its start to its end (40 R118), with the number of steps that always suffices (40 R119).
-/

namespace Sys2Proof.Machine

/-- The state after exactly `n` steps, if there are that many (40 R118). -/
def State.afterSteps : Nat → State → Option State
  | 0, s => some s
  | n + 1, s =>
    match step s with
    | .next t => State.afterSteps n t
    | .fault _ => none
    | .refused _ => none

/-- At most `n` steps, staying in a state that has none (40 R118). -/
def State.runFor : Nat → State → State
  | 0, s => s
  | n + 1, s =>
    match step s with
    | .next t => State.runFor n t
    | .fault _ => s
    | .refused _ => s

/-- The number of steps within which a run of `prog` ends (40 R119). -/
def stepBound (prog : List Byte) : Nat := prog.length / Config.recordBytes + 1

/-- The state a run ends in: the first one whose `status` is not RUN (40 R118). -/
def State.finish (s : State) : State := State.runFor (stepBound s.prog) s

/-- The end state of the run of a stream (40 R118). -/
def runProgram (prog : List Byte) : State := (State.startRun prog).finish

end Sys2Proof.Machine
end

