-- ==== Sys2Proof/Safety.lean ====
section
/-!
DEFINITION. The terms claims about a run are made in: reachable states, the ends of a run (40 R118, 60 R192), and
the invariants of the machine.
-/

namespace Sys2Proof.Machine

/-- The states of the run of a stream, from its start on (40 R118). -/
inductive Reachable (prog : List Byte) : State → Prop
  | start : Reachable prog (State.startRun prog)
  | step {s t : State} : Reachable prog s → step s = .next t → Reachable prog t

/-- The run has ended: a property of the state alone (40 R118). -/
abbrev State.Ended (s : State) : Prop := s.status ≠ .run

/-- The run produced a snapshot; a run that ends in FAIL is never a successful end (60 R192). -/
abbrev State.Succeeded (s : State) : Prop := s.status = .done

/-- The values `{ b, b * 2^56 : 0 <= b <= 255 }` (10 R34). -/
def ByteOrTopByte (v : Word) : Prop := ∃ b : Byte, v.toNat = b.toNat ∨ v.toNat = b.toNat * 2 ^ 56

/-- Every cell holds a value a run can produce (10 R34). -/
def CellValueInv (s : State) : Prop := ∀ a, ByteOrTopByte (Memory.read s.m a)

/-- The Memory Store is in canonical form (log 4). -/
abbrev MemoryInv (s : State) : Prop := Memory.wf s.m = true

/-- `cause` is NONE exactly while `status` is RUN or DONE (10 R26). -/
abbrev CauseInv (s : State) : Prop := s.cause = .none ↔ s.status ≠ .fail

/-- `pc` stays inside the stream; in DONE fewer than six bytes remain there, in FAIL a complete record stands there
(10 R24, 40 R118). -/
abbrev PcInv (s : State) : Prop :=
  Config.recordBytes * s.pc ≤ s.prog.length ∧
    (s.status = .done → s.prog.length < Config.recordBytes * s.pc + Config.recordBytes) ∧
    (s.status = .fail → Config.recordBytes * s.pc + Config.recordBytes ≤ s.prog.length)

/-- The bytes of record `k` of a stream: `prog[6k .. 6k+5]` (10 R23, 20 R65). -/
def recordAt (prog : List Byte) (k : Nat) : List Byte := (prog.drop (6 * k)).take 6

/-- From `s` to `t` the instruction retired: `pc` one higher, `status`, `cause` and the stream as before (40 R116). -/
def Retires (s t : State) : Prop := t.pc = s.pc + 1 ∧ t.status = s.status ∧ t.cause = s.cause ∧ t.prog = s.prog

/-- From `s` to `t` the cell `a` became `v` and every other cell reads as before (00 R9, 20 R58). -/
def WritesOnly (s t : State) (a : Nat) (v : Word) : Prop :=
  Memory.read t.m a = v ∧ ∀ b, b ≠ a → Memory.read t.m b = Memory.read s.m b

/-- From `s` to `t` the core entered the fault whose cause is `c`: nothing but `status` and `cause` changed
(60 R176). -/
def EntersFault (s t : State) (c : Cause) : Prop :=
  t.m = s.m ∧ t.pc = s.pc ∧ t.status = .fail ∧ t.cause = c ∧ t.prog = s.prog

/-- The opcode byte is one of the four (30 R86). -/
def KnownOpcode (b : Byte) : Prop := b = 98#8 ∨ b = 19#8 ∨ b = 5#8 ∨ b = 22#8

/-- The record is one whose indirect address is outside [0, 255] in this memory (60 R172). -/
def AddressOutOfRange (m : Memory) (r : Record) : Prop :=
  (r.opcode = 19#8 ∧ 256 ≤ (Memory.read m r.op2.toNat).toNat + r.op3.toNat) ∨
    (r.opcode = 5#8 ∧ 256 ≤ (Memory.read m r.op1.toNat).toNat)

/-- `cause` names a fault exactly in FAIL, and the fault it names is the one the record at `pc` raises in the cells as
they stand, both being unchanged by fault entry (10 R26, 60 R171, R172, R176). -/
def FaultRecordInv (s : State) : Prop :=
  (s.cause = .none ↔ s.status ≠ .fail) ∧
    (s.cause = .unknownOpcode ↔
      s.status = .fail ∧ ∃ r : Record, recordAt s.prog s.pc = r.bytes ∧ ¬KnownOpcode r.opcode) ∧
    (s.cause = .outOfRangeAddress ↔
      s.status = .fail ∧ ∃ r : Record, recordAt s.prog s.pc = r.bytes ∧ AddressOutOfRange s.m r)

/-- Two records that differ at most in fields the hardware ignores (30 R82, R88, R89). -/
def SameButIgnored (r r' : Record) : Prop :=
  r.opcode = r'.opcode ∧ (KnownOpcode r.opcode → r.op1 = r'.op1 ∧ r.op2 = r'.op2) ∧
    (r.opcode = 19#8 → r.op3 = r'.op3)

/-- Two streams that differ at most in ignored fields and in the bytes after the last complete record
(30 R89, 40 R111). -/
def SameRecords (p q : List Byte) : Prop :=
  p.length / 6 = q.length / 6 ∧
    ∀ k r r', recordAt p k = r.bytes → recordAt q k = r'.bytes → SameButIgnored r r'

end Sys2Proof.Machine
end

