-- ==== Sys2Proof/Certificates/Slice0/Obligations.lean ====
section
/-!
DEFINITION. The statements about the model, from the numbered rules of spec/ (OBLIGATIONS.json lists them).
-/

open Sys2Proof Sys2Proof.Machine

/-! ### Reset -/

/-- 10 R33, 70 R200: from any state, reset leaves every cell 0, `pc` 0, `status` RUN and `cause` NONE; so does the
start of a run of any stream, and the model's `State.reset` is such a state. -/
def Obligations.ResetLeavesTheSpecState : Prop :=
  ∀ s t : State, (t = s.applyReset ∨ t = State.reset ∨ ∃ prog, t = State.startRun prog) →
    (∀ a, a < 256 → Memory.read t.m a = 0#64) ∧ t.pc = 0 ∧ t.status = .run ∧ t.cause = .none

/-- The start of every run, and `State.reset`, meet the five invariants. The canonical form of the list is the
model's own (log 4), and that reset keeps or supplies a stream is log 2. -/
def Obligations.ResetMeetsTheInvariants : Prop :=
  ∀ prog : List Byte, ∀ s : State, s = State.startRun prog ∨ s = State.reset →
    MemoryInv s ∧ CellValueInv s ∧ CauseInv s ∧ PcInv s ∧ FaultRecordInv s

/-! ### Encoding -/

/-- Six words of 95 V1 written out: the decoder reads the four sample records, a record with every ignored field
set, and turns the neighbour of an opcode away (30 R80, R86, R88). -/
def Obligations.DecodeReadsTheSpecsWords : Prop :=
  decode [0x62#8, 0x07#8, 0x03#8, 0x00#8, 0x00#8, 0x00#8] = .ok (.set 7#8 3#8 0#8 0#8 0#8) ∧
  decode [0x13#8, 0x1E#8, 0x0A#8, 0x02#8, 0x00#8, 0x00#8] = .ok (.loadIndirectOffset 30#8 10#8 2#8 0#8 0#8) ∧
  decode [0x05#8, 0x28#8, 0x1E#8, 0x00#8, 0x00#8, 0x00#8] = .ok (.storeIndirect 40#8 30#8 0#8 0#8 0#8) ∧
  decode [0x16#8, 0x05#8, 0x03#8, 0x00#8, 0x00#8, 0x00#8] = .ok (.byteSwap64 5#8 3#8 0#8 0#8 0#8) ∧
  decode [0x62#8, 0xFF#8, 0xFF#8, 0xFF#8, 0xFF#8, 0xFF#8] = .ok (.set 255#8 255#8 255#8 255#8 255#8) ∧
  decode [0x63#8, 0x07#8, 0x03#8, 0x00#8, 0x00#8, 0x00#8] = .error (.unknownOpcode 0x63#8)

/-- Decoding the encoding of any instruction gives it back, all five operand fields at every value, and encoding
what was decoded gives the same bytes (30 R80, R83, R86, R89). -/
def Obligations.EncodeAndDecodeAreInverse : Prop :=
  (∀ i : Instr, decode (encode i) = .ok i) ∧
    ∀ (bytes : List Byte) (i : Instr), decode bytes = .ok i → encode i = bytes

/-- The decoder on any bytes: a list that is not six bytes is rejected as no record (one shorter than six by R83; one
longer, of which no rule speaks, by the model's own choice, log 15); a record is an instruction exactly when
its opcode is one of the four, whatever its other bytes, and is rejected by its opcode otherwise (30 R83, R88). -/
def Obligations.DecodeIsTotalAndNamesRejections : Prop :=
  (∀ bytes : List Byte, bytes.length ≠ 6 → decode bytes = .error (.notARecord bytes.length)) ∧
    ∀ r : Record,
      (KnownOpcode r.opcode → ∃ i, decode r.bytes = .ok i ∧ i.record = r) ∧
      (¬KnownOpcode r.opcode → decode r.bytes = .error (.unknownOpcode r.opcode))

/-- The 48-bit presentation: fields at the bits R81 gives, the table's match and mask select the opcode, and the
decoder of table words agrees with the decoder of bytes (30 R81, R86; how a table word is laid out is log 5). -/
def Obligations.TableWordsPresentRecords : Prop :=
  ∀ r : Record,
    (r.opcode = r.word.extractLsb' 40 8 ∧ r.op1 = r.word.extractLsb' 32 8 ∧ r.op2 = r.word.extractLsb' 24 8 ∧
      r.op3 = r.word.extractLsb' 16 8 ∧ r.op4 = r.word.extractLsb' 8 8 ∧ r.op5 = r.word.extractLsb' 0 8) ∧
    (r.word &&& 0xFF0000000000#48 = 0x620000000000#48 ↔ r.opcode = 98#8) ∧
    (r.word &&& 0xFF0000000000#48 = 0x130000000000#48 ↔ r.opcode = 19#8) ∧
    (r.word &&& 0xFF0000000000#48 = 0x050000000000#48 ↔ r.opcode = 5#8) ∧
    (r.word &&& 0xFF0000000000#48 = 0x160000000000#48 ↔ r.opcode = 22#8) ∧
    decodeTableWord 48 r.word.toNat = r.toInstr

/-- 30 R93: a record prints as its syntax line when its opcode is known and its ignored fields are 0, and as `.rec`
otherwise; what is printed assembles to the record; a syntax line's record prints as that line. -/
def Obligations.DisassemblyAndAssemblyAreInverse : Prop :=
  (∀ r : Record, assemble (disassemble r) = r.bytes ∧ (disassemble r).wellFormed = true) ∧
  (∀ (a : AsmStmt) (r : Record), a.wellFormed = true →
    (∀ b0 b1 b2 b3 b4 b5, a ≠ .rawRecord b0 b1 b2 b3 b4 b5) → assemble a = r.bytes → disassemble r = a) ∧
  ∀ r : Record,
    ((∃ b0 b1 b2 b3 b4 b5, disassemble r = .rawRecord b0 b1 b2 b3 b4 b5) ↔
      ¬(((r.opcode = 98#8 ∨ r.opcode = 5#8 ∨ r.opcode = 22#8) ∧ r.op3 = 0#8 ∧ r.op4 = 0#8 ∧ r.op5 = 0#8) ∨
        (r.opcode = 19#8 ∧ r.op4 = 0#8 ∧ r.op5 = 0#8)))

/-! ### The step -/

/-- 40 R110, R113, R114: in RUN, where the six bytes at offset `6 * pc` decode to an instruction, the step is that
instruction's execution and nothing around it. -/
def Obligations.StepRunsTheDecodedInstruction : Prop :=
  ∀ (s : State) (i : Instr), s.status = .run → decode (recordAt s.prog s.pc) = .ok i → step s = exec i s

/-- 40 R111: where fewer than six bytes remain the step sets DONE and changes nothing else, whatever those bytes
are; inside the stream `pc` is then `floor(LEN / 6)`. -/
def Obligations.ShortRemainderHaltsTheRun : Prop :=
  ∀ s : State, s.status = .run → s.prog.length < 6 * s.pc + 6 →
    ∃ t, step s = .next t ∧ t.status = .done ∧ t.m = s.m ∧ t.pc = s.pc ∧ t.cause = s.cause ∧ t.prog = s.prog ∧
      (6 * s.pc ≤ s.prog.length → t.pc = s.prog.length / 6)

/-- 40 R115: a complete record with another opcode raises UnknownOpcode: no cell written, `pc` unchanged, and no
later record is ever fetched, the state having no step. -/
def Obligations.UnknownOpcodeFaults : Prop :=
  ∀ (s : State) (r : Record), s.status = .run → recordAt s.prog s.pc = r.bytes → ¬KnownOpcode r.opcode →
    ∃ t, step s = .next t ∧ EntersFault s t .unknownOpcode ∧ ∀ u, step t ≠ .next u

/-- A state whose run has ended has no step (00 R10, 40 R110); the stop's two names are the model's (log 3). -/
def Obligations.EndedRunsHaveNoStep : Prop :=
  ∀ s : State, (s.status = .done → step s = .fault .noStepAfterDone) ∧
    (s.status = .fail → step s = .fault .noStepAfterFail)

/-- What a step from RUN does, case by case, each from its condition: fewer than six bytes halt; a complete record
with another opcode, or a load or store whose address is out of range, enters its fault; any other record makes
its one write, at the cell its instruction names or computes, and retires. Every RUN state has bytes for one of
these cases (00 R10, 10 R22, 20 R55, 40 R110, R116). -/
def Obligations.RunningStepHasThreeOutcomes : Prop :=
  ∀ s : State, s.status = .run →
    (s.prog.length < 6 * s.pc + 6 ∨ ∃ r : Record, recordAt s.prog s.pc = r.bytes) ∧
    (s.prog.length < 6 * s.pc + 6 → ∃ t, step s = .next t ∧
      t.status = .done ∧ t.m = s.m ∧ t.pc = s.pc ∧ t.cause = s.cause ∧ t.prog = s.prog) ∧
    ∀ r : Record, recordAt s.prog s.pc = r.bytes →
      (¬KnownOpcode r.opcode → ∃ t, step s = .next t ∧ EntersFault s t .unknownOpcode) ∧
      (AddressOutOfRange s.m r → ∃ t, step s = .next t ∧ EntersFault s t .outOfRangeAddress) ∧
      (r.opcode = 98#8 → ∃ t, step s = .next t ∧ Retires s t ∧
        WritesOnly s t r.op2.toNat (BitVec.ofNat 64 r.op1.toNat)) ∧
      (r.opcode = 19#8 → ¬AddressOutOfRange s.m r → ∃ t, step s = .next t ∧ Retires s t ∧
        WritesOnly s t r.op1.toNat
          (Memory.read s.m ((Memory.read s.m r.op2.toNat).toNat + r.op3.toNat))) ∧
      (r.opcode = 5#8 → ¬AddressOutOfRange s.m r → ∃ t, step s = .next t ∧ Retires s t ∧
        WritesOnly s t (Memory.read s.m r.op1.toNat).toNat (Memory.read s.m r.op2.toNat)) ∧
      (r.opcode = 22#8 → ∃ t, step s = .next t ∧ Retires s t ∧
        WritesOnly s t r.op1.toNat (bswap64 (Memory.read s.m r.op2.toNat)))

/-- How `pc` and `status` move: only RUN has a step; a step that stays in RUN adds 1 to `pc`; one that leaves RUN
changes neither `pc` nor a cell (10 R24, R25). -/
def Obligations.PcMovesOnlyOnRetirement : Prop :=
  ∀ s t : State, step s = .next t →
    s.status = .run ∧ (t.status = .run → t.pc = s.pc + 1) ∧ (t.status ≠ .run → t.pc = s.pc ∧ t.m = s.m)

/-- 60 R176: a step that ends in FAIL changed nothing but `status` and `cause`; `cause` is the code of the fault the
record at `pc` raised; there is no step after it and the snapshot port refuses every read. -/
def Obligations.FaultEntryIsPreciseAndFinal : Prop :=
  ∀ s t : State, step s = .next t → t.status = .fail →
    (∃ r : Record, recordAt s.prog s.pc = r.bytes ∧
      ((¬KnownOpcode r.opcode ∧ EntersFault s t .unknownOpcode) ∨
        (AddressOutOfRange s.m r ∧ EntersFault s t .outOfRangeAddress))) ∧
    (∀ u, step t ≠ .next u) ∧ ∀ first last, ∃ r, t.snapshot first last = .error r

/-! ### The instructions: result, completion and frame -/

/-- 41 R130: the record `62 op1 op2 xx xx xx` is Set, which always completes; `m[op2]` is op1 zero-extended, every
other cell and everything but `pc` is unchanged, whatever the ignored fields hold. -/
def Obligations.SetStoresItsImmediate : Prop :=
  ∀ (op1 op2 op3 op4 op5 : Byte) (s : State),
    decode [0x62#8, op1, op2, op3, op4, op5] = .ok (.set op1 op2 op3 op4 op5) ∧
    ∃ t, exec (.set op1 op2 op3 op4 op5) s = .next t ∧ Retires s t ∧ (∃ v : Word, WritesOnly s t op2.toNat v ∧ v.toNat = op1.toNat ∧ v.extractLsb' 8 56 = 0#56)

/-- 41 R133: the record `13 op1 op2 op3 xx xx` is LoadIndirectOffset, which completes where `m[op2] + op3`, the exact sum, is below 256, and there copies that
cell into `m[op1]`; elsewhere it enters OutOfRangeAddress with nothing written. -/
def Obligations.LoadIndirectOffsetLoadsOrFaults : Prop :=
  ∀ (op1 op2 op3 op4 op5 : Byte) (s : State) (address : Nat),
    address = (Memory.read s.m op2.toNat).toNat + op3.toNat →
    decode [0x13#8, op1, op2, op3, op4, op5] = .ok (.loadIndirectOffset op1 op2 op3 op4 op5) ∧
    (address < 256 → ∃ t, exec (.loadIndirectOffset op1 op2 op3 op4 op5) s = .next t ∧ Retires s t ∧
      WritesOnly s t op1.toNat (Memory.read s.m address)) ∧
    (256 ≤ address → ∃ t, exec (.loadIndirectOffset op1 op2 op3 op4 op5) s = .next t ∧
      EntersFault s t .outOfRangeAddress)

/-- 41 R137: the record `05 op1 op2 xx xx xx` is StoreIndirect, which completes where the pointer `m[op1]` is below 256, and there copies `m[op2]` into the
cell it points at; elsewhere it enters OutOfRangeAddress with nothing written. -/
def Obligations.StoreIndirectStoresOrFaults : Prop :=
  ∀ (op1 op2 op3 op4 op5 : Byte) (s : State) (address : Nat),
    address = (Memory.read s.m op1.toNat).toNat →
    decode [0x05#8, op1, op2, op3, op4, op5] = .ok (.storeIndirect op1 op2 op3 op4 op5) ∧
    (address < 256 → ∃ t, exec (.storeIndirect op1 op2 op3 op4 op5) s = .next t ∧ Retires s t ∧
      WritesOnly s t address (Memory.read s.m op2.toNat)) ∧
    (256 ≤ address → ∃ t, exec (.storeIndirect op1 op2 op3 op4 op5) s = .next t ∧
      EntersFault s t .outOfRangeAddress)

/-- 42 R155: the record `16 op1 op2 xx xx xx` is ByteSwap64, which always completes; `m[op1]` is the byte swap of the old `m[op2]`, every other cell and
everything but `pc` is unchanged. -/
def Obligations.ByteSwapStoresTheSwappedCell : Prop :=
  ∀ (op1 op2 op3 op4 op5 : Byte) (s : State),
    decode [0x16#8, op1, op2, op3, op4, op5] = .ok (.byteSwap64 op1 op2 op3 op4 op5) ∧
    ∃ t, exec (.byteSwap64 op1 op2 op3 op4 op5) s = .next t ∧ Retires s t ∧ WritesOnly s t op1.toNat (bswap64 (Memory.read s.m op2.toNat))

/-- 41 R131 (e): every instruction but ByteSwap64 leaves a store of values below 256 a store of values below 256. -/
def Obligations.OnlyByteSwapMakesLargeValues : Prop :=
  ∀ (i : Instr) (s t : State), (∀ op1 op2 op3 op4 op5, i ≠ .byteSwap64 op1 op2 op3 op4 op5) →
    (∀ a, (Memory.read s.m a).toNat < 256) → exec i s = .next t → ∀ a, (Memory.read t.m a).toNat < 256

/-- 41 R135 (a), (b), (e), (f): a zero offset loads through the pointer itself; a zero pointer makes the instruction
a direct copy of cell op3; with op1 = op2 the address comes from the old pointer; loading a cell into itself changes
no cell. -/
def Obligations.LoadIndirectOffsetCornerCases : Prop :=
  ∀ (op1 op2 op3 op4 op5 : Byte) (s : State),
    ((Memory.read s.m op2.toNat).toNat < 256 → ∃ t, exec (.loadIndirectOffset op1 op2 0#8 op4 op5) s = .next t ∧
      WritesOnly s t op1.toNat (Memory.read s.m (Memory.read s.m op2.toNat).toNat)) ∧
    (Memory.read s.m op2.toNat = 0#64 → ∃ t, exec (.loadIndirectOffset op1 op2 op3 op4 op5) s = .next t ∧
      WritesOnly s t op1.toNat (Memory.read s.m op3.toNat)) ∧
    ((Memory.read s.m op2.toNat).toNat + op3.toNat < 256 →
      ∃ t, exec (.loadIndirectOffset op2 op2 op3 op4 op5) s = .next t ∧
        Memory.read t.m op2.toNat = Memory.read s.m ((Memory.read s.m op2.toNat).toNat + op3.toNat)) ∧
    ((Memory.read s.m op2.toNat).toNat + op3.toNat = op1.toNat →
      ∃ t, exec (.loadIndirectOffset op1 op2 op3 op4 op5) s = .next t ∧
        ∀ a, Memory.read t.m a = Memory.read s.m a)

/-- 41 R138 (c), (d): a pointer at the source makes StoreIndirect change nothing but `pc` in a store of canonical
form (log 4); with op1 = op2 the addressed cell receives its own address. -/
def Obligations.StoreIndirectCornerCases : Prop :=
  ∀ (op1 op2 op3 op4 op5 : Byte) (s : State),
    (MemoryInv s → (Memory.read s.m op1.toNat).toNat = op2.toNat →
      exec (.storeIndirect op1 op2 op3 op4 op5) s = .next (s.withPc (s.pc + 1))) ∧
    ((Memory.read s.m op1.toNat).toNat < 256 →
      ∃ t, exec (.storeIndirect op1 op1 op3 op4 op5) s = .next t ∧
        WritesOnly s t (Memory.read s.m op1.toNat).toNat (Memory.read s.m op1.toNat))

/-- 42 R156 (a), (g): swapping a cell in place twice restores the whole store (in canonical form, log 4); swapping
through a cell and back leaves the old value in the last destination. -/
def Obligations.ByteSwapRoundTrips : Prop :=
  ∀ (a b c op3 op4 op5 : Byte) (s t u : State),
    (MemoryInv s → exec (.byteSwap64 a a op3 op4 op5) s = .next t →
      exec (.byteSwap64 a a op3 op4 op5) t = .next u → u = s.withPc (s.pc + 2)) ∧
    (exec (.byteSwap64 a b op3 op4 op5) s = .next t → exec (.byteSwap64 c a op3 op4 op5) t = .next u →
      Memory.read u.m c.toNat = Memory.read s.m b.toNat)

/-! ### Addresses and the byte-swap primitive -/

/-- The indirect accesses on any integer: inside [0, 255] they read or write that cell, outside they answer nothing,
below as well as above (00 R9, 20 R52). -/
def Obligations.IndirectAccessChecksTheRange : Prop :=
  ∀ (s : State) (addr : Int) (v : Word),
    (0 ≤ addr ∧ addr ≤ 255 → s.memRead addr = some (Memory.read s.m addr.toNat) ∧
      ∃ t, s.memWrite addr v = some t ∧ WritesOnly s t addr.toNat v ∧ t.pc = s.pc ∧ t.status = s.status ∧
        t.cause = s.cause ∧ t.prog = s.prog) ∧
    (addr < 0 ∨ 255 < addr → s.memRead addr = none ∧ s.memWrite addr v = none)

/-- 41 R134: the effective address is the exact sum, in [0, 2^64 + 254]; it is in range iff the base's upper 56 bits
are 0 and its low byte plus op3 is at most 255, and then the index is that 8-bit sum; otherwise the read raises. -/
def Obligations.LoadAddressIsTheExactSum : Prop :=
  ∀ (base : Word) (op3 : Byte),
    indirectOffsetAddress base op3 = (base.toNat : Int) + op3.toNat ∧
    0 ≤ indirectOffsetAddress base op3 ∧ indirectOffsetAddress base op3 ≤ 2 ^ 64 + 254 ∧
    ((base.extractLsb' 8 56 = 0#56 ∧ (base.extractLsb' 0 8).toNat + op3.toNat ≤ 255) →
      inStore (indirectOffsetAddress base op3) = true ∧
        indirectOffsetAddress base op3 = ((base.extractLsb' 0 8 + op3).toNat : Int)) ∧
    (¬(base.extractLsb' 8 56 = 0#56 ∧ (base.extractLsb' 0 8).toNat + op3.toNat ≤ 255) →
      ∀ s : State, s.memRead (indirectOffsetAddress base op3) = none)

/-- 42 R150: byte k of the result is byte 7-k of the operand, and the value is the rule's sum; 7 swaps to the
source's worked value. -/
def Obligations.ByteSwapMirrorsTheBytes : Prop :=
  bswap64 7#64 = 0x0700000000000000#64 ∧ ∀ v : Word,
    (∀ k, k < 8 → (bswap64 v).extractLsb' (8 * k) 8 = v.extractLsb' (8 * (7 - k)) 8) ∧
    (bswap64 v).toNat =
      (v.extractLsb' 0 8).toNat * 2 ^ 56 + (v.extractLsb' 8 8).toNat * 2 ^ 48 +
      (v.extractLsb' 16 8).toNat * 2 ^ 40 + (v.extractLsb' 24 8).toNat * 2 ^ 32 +
      (v.extractLsb' 32 8).toNat * 2 ^ 24 + (v.extractLsb' 40 8).toNat * 2 ^ 16 +
      (v.extractLsb' 48 8).toNat * 2 ^ 8 + (v.extractLsb' 56 8).toNat

/-- 42 R151: on all integers, the sum of R150 inside [0, 2^64 - 1] and the sentinel -1 outside; the pattern of 64
ones is a valid operand and maps to itself. -/
def Obligations.ByteSwapSentinelOutsideTheRange : Prop :=
  (∀ v : Int, 0 ≤ v → v ≤ 2 ^ 64 - 1 → bswap64Int v =
      v % 2 ^ 8 * 2 ^ 56 + v / 2 ^ 8 % 2 ^ 8 * 2 ^ 48 + v / 2 ^ 16 % 2 ^ 8 * 2 ^ 40 +
      v / 2 ^ 24 % 2 ^ 8 * 2 ^ 32 + v / 2 ^ 32 % 2 ^ 8 * 2 ^ 24 + v / 2 ^ 40 % 2 ^ 8 * 2 ^ 16 +
      v / 2 ^ 48 % 2 ^ 8 * 2 ^ 8 + v / 2 ^ 56 % 2 ^ 8) ∧
  (∀ v : Int, v < 0 ∨ 2 ^ 64 - 1 < v → bswap64Int v = -1) ∧ bswap64Int (2 ^ 64 - 1) = 2 ^ 64 - 1

/-- 42 R152: involution, bijection, the byte palindromes as fixed points, one-byte values, no monotonicity, no
additivity, and no involution off the range. -/
def Obligations.ByteSwapAlgebra : Prop :=
  (∀ v, bswap64 (bswap64 v) = v) ∧ Function.Bijective bswap64 ∧
  (∀ v, bswap64 v = v ↔ ∀ k, k < 8 → v.extractLsb' (8 * k) 8 = v.extractLsb' (8 * (7 - k)) 8) ∧
  (bswap64 0#64 = 0#64 ∧ bswap64 (BitVec.ofNat 64 (2 ^ 64 - 1)) = BitVec.ofNat 64 (2 ^ 64 - 1)) ∧
  (∀ b : Byte, (bswap64 (BitVec.ofNat 64 b.toNat)).toNat = b.toNat * 2 ^ 56 ∧
    (bswap64 (BitVec.ofNat 64 (b.toNat * 2 ^ 56))).toNat = b.toNat) ∧
  (∃ v w, v.toNat < w.toNat ∧ (bswap64 w).toNat < (bswap64 v).toNat) ∧
  (∃ v w, bswap64 (v + w) ≠ bswap64 v + bswap64 w) ∧
  bswap64Int (bswap64Int (2 ^ 64)) = -1

/-! ### Invariants every step keeps -/

/-- The Memory Store keeps its canonical form: indices rising and below 256, no zero listed (10 R20; log 4). -/
def Obligations.StepKeepsMemoryCanonical : Prop := ∀ s t : State, MemoryInv s → step s = .next t → MemoryInv t

/-- Every cell keeps holding a byte or a byte times 2^56 (10 R34). -/
def Obligations.StepKeepsCellValues : Prop := ∀ s t : State, CellValueInv s → step s = .next t → CellValueInv t

/-- `cause` stays NONE exactly while `status` is not FAIL (10 R26). -/
def Obligations.StepKeepsCauseWithStatus : Prop := ∀ s t : State, CauseInv s → step s = .next t → CauseInv t

/-- `pc` stays inside the stream, at its end in DONE and before a complete record in FAIL (10 R24, 40 R118). -/
def Obligations.StepKeepsPcInStream : Prop := ∀ s t : State, PcInv s → step s = .next t → PcInv t

/-- In FAIL, and only there, `cause` names the fault of the record at `pc`: UnknownOpcode exactly where its opcode is
unknown, OutOfRangeAddress exactly where its address is out of range in the cells as they stand (10 R26, 60 R171,
R172, R176). -/
def Obligations.StepKeepsFaultRecord : Prop := ∀ s t : State, FaultRecordInv s → step s = .next t → FaultRecordInv t

/-! ### Whole runs, of every stream -/

/-- 10 R34: in every reachable state every cell holds `b` or `b * 2^56`; hence the sentinel never arises, and an
indirect address is out of range exactly when it is at least 256. -/
def Obligations.ReachableCellsHoldBytesOrTopBytes : Prop :=
  ∀ (prog : List Byte) (s : State), Reachable prog s →
    CellValueInv s ∧ ∀ a, bswap64Int ((Memory.read s.m a).toNat : Int) ≠ -1 ∧
      ∀ op3 : Byte,
        (inStore (indirectAddress (Memory.read s.m a)) = false ↔ 256 ≤ indirectAddress (Memory.read s.m a)) ∧
        (inStore (indirectOffsetAddress (Memory.read s.m a) op3) = false ↔
          256 ≤ indirectOffsetAddress (Memory.read s.m a) op3)

/-- 10 R25, R26: in every reachable state the code of `status` is 0, 1, 2 exactly in RUN, DONE, FAIL; the code of
`cause` is 0 exactly in RUN and DONE; 1 exactly in FAIL on a record whose opcode is unknown; 2 exactly in FAIL on a
record whose indirect address is out of range; neither is ever 3. -/
def Obligations.CauseCodeNamesTheFault : Prop :=
  ∀ (prog : List Byte) (s : State), Reachable prog s →
    (s.status.code = 0#2 ↔ s.status = .run) ∧ (s.status.code = 1#2 ↔ s.status = .done) ∧
    (s.status.code = 2#2 ↔ s.status = .fail) ∧ s.status.code ≠ 3#2 ∧
    (s.cause.code = 0#2 ↔ s.status = .run ∨ s.status = .done) ∧
    (s.cause.code = 1#2 ↔ s.status = .fail ∧
      ∃ r : Record, recordAt prog s.pc = r.bytes ∧ ¬KnownOpcode r.opcode) ∧
    (s.cause.code = 2#2 ↔ s.status = .fail ∧
      ∃ r : Record, recordAt prog s.pc = r.bytes ∧ AddressOutOfRange s.m r) ∧
    s.cause.code ≠ 3#2

/-- After n steps of any run `pc` counts the retired instructions: all n while RUN, all but the last step once the
run has ended (10 R23). -/
def Obligations.PcCountsRetiredInstructions : Prop :=
  ∀ (prog : List Byte) (n : Nat) (t : State), (State.startRun prog).afterSteps n = some t →
    (t.status = .run → t.pc = n) ∧ (t.status ≠ .run → t.pc + 1 = n)

/-- 40 R119: every run ends within `floor(LEN / 6) + 1` steps, one that ends in DONE takes exactly that many, and in
every RUN state the step has a next state. -/
def Obligations.EveryRunEndsInTime : Prop :=
  (∀ s : State, s.status = .run → ∃ t, step s = .next t) ∧
  ∀ prog : List Byte, ∃ n t, n ≤ prog.length / 6 + 1 ∧
    (State.startRun prog).afterSteps n = some t ∧ t.status ≠ .run ∧
    (t.status = .done → n = prog.length / 6 + 1)

/-- `runProgram` gives the end of the run: a reachable state that has ended, and the only one; in DONE its `pc` is
`floor(LEN / 6)`, in FAIL it is the index of a complete record (40 R118, R120). -/
def Obligations.RunProgramIsTheUniqueEnd : Prop :=
  ∀ prog : List Byte, Reachable prog (runProgram prog) ∧ (runProgram prog).Ended ∧
    (∀ t, Reachable prog t → t.Ended → t = runProgram prog) ∧
    ((runProgram prog).status = .done → (runProgram prog).pc = prog.length / 6) ∧
    ((runProgram prog).status = .fail → (runProgram prog).pc < prog.length / 6)

/-- Two streams that differ only in ignored fields and trailing bytes have the same end state (30 R89, 40 R111). -/
def Obligations.IgnoredBytesDoNotMatter : Prop :=
  ∀ p q : List Byte, SameRecords p q →
    (runProgram p).m = (runProgram q).m ∧ (runProgram p).pc = (runProgram q).pc ∧
    (runProgram p).status = (runProgram q).status ∧ (runProgram p).cause = (runProgram q).cause

/-- Where a run fails at `pc = k`, the run of the first `6k` bytes alone ends in DONE with the same cells
(40 R118, 60 R177). -/
def Obligations.RecordsBeforeAFaultRetire : Prop :=
  ∀ p : List Byte, (runProgram p).status = .fail →
    (runProgram (p.take (6 * (runProgram p).pc))).status = .done ∧
    (runProgram (p.take (6 * (runProgram p).pc))).m = (runProgram p).m ∧
    (runProgram (p.take (6 * (runProgram p).pc))).pc = (runProgram p).pc

/-! ### Isolation of the two address spaces -/

/-- 20 R66: no instruction reads or writes the stream, and no cell is ever fetched. -/
def Obligations.StreamAndCellsAreDisjoint : Prop :=
  (∀ (i : Instr) (s t : State) (p : List Byte), exec i s = .next t →
    t.prog = s.prog ∧ exec i (s.withProg p) = .next (t.withProg p)) ∧
  ∀ (s : State) (m : Memory), (s.withM m).fetch = s.fetch

/-- No lookahead: bytes after the record at `pc` do not change what the step does (10 R29, 40 R112). -/
def Obligations.StepHasNoLookahead : Prop :=
  ∀ (s t : State) (p : List Byte), p.take (6 * s.pc + 6) = s.prog.take (6 * s.pc + 6) → step s = .next t →
    step (s.withProg p) = .next (t.withProg p)

/-! ### The host's side -/

/-- 70 R206: in DONE a snapshot read with a legal range gives `(a, m[a])` for a from start to end - 1, in order, and
that is what the host's request is answered with. -/
def Obligations.SnapshotGivesTheRange : Prop :=
  ∀ (s : State) (first last : Int), s.status = .done → 0 ≤ first → first ≤ last → last ≤ 256 →
    ∃ rows, s.snapshot first last = .ok rows ∧ s.host (.snapshot first last) = .ok (.rows rows, s) ∧
      (rows.length : Int) = last - first ∧
      ∀ k : Nat, (k : Int) < last - first →
        rows[k]? = some (first.toNat + k, (Memory.read s.m (first.toNat + k)).toNat)

/-- 70 R208: a snapshot read is refused exactly when the run has not ended in DONE or the range is not
`0 <= start <= end <= 256`; a refused read has no answer and no next state. -/
def Obligations.SnapshotRefusals : Prop :=
  ∀ (s : State) (first last : Int),
    ((∃ r, s.host (.snapshot first last) = .error r) ↔
      s.status ≠ .done ∨ ¬(0 ≤ first ∧ first ≤ last ∧ last ≤ 256)) ∧
    ((∃ r, s.snapshot first last = .error r) ↔ ∃ r, s.host (.snapshot first last) = .error r)

/-- 70 R209: a snapshot read changes nothing, any two give the same value for the same cell, the empty range gives
the empty sequence and the full store is readable. -/
def Obligations.SnapshotIsRepeatable : Prop :=
  ∀ s : State,
    (∀ first last reply t, s.host (.snapshot first last) = .ok (reply, t) → t = s) ∧
    (∀ f l f' l' rows rows', s.snapshot f l = .ok rows → s.snapshot f' l' = .ok rows' →
      ∀ a v v', (a, v) ∈ rows → (a, v') ∈ rows' → v = v') ∧
    (s.status = .done → (∀ f : Int, 0 ≤ f → f ≤ 256 → s.snapshot f f = .ok []) ∧
      ∃ rows, s.snapshot 0 256 = .ok rows ∧ rows.length = 256)

/-- While the run has not ended in DONE the host cannot tell two stores apart, whatever it asks (10 R36). -/
def Obligations.CellsAreHiddenBeforeDone : Prop :=
  ∀ (s : State) (m : Memory) (q : HostRequest), s.status ≠ .done →
    ((s.withM m).host q).map Prod.fst = (s.host q).map Prod.fst

/-- The host can neither write a cell nor change the stream of a run: a read leaves the state as it is, the reset
request begins a run of the stream in place, and a start begins a run of the stream supplied (70 R200, R203; the
form of the requests is log 2). -/
def Obligations.HostOnlyReadsOrRestarts : Prop :=
  ∀ (s t : State) (q : HostRequest) (reply : HostReply), s.host q = .ok (reply, t) →
    (q = .reset → t = State.startRun s.prog ∧ t.prog = s.prog) ∧
    (∀ prog, q = .start prog → t = State.startRun prog ∧ t.prog = prog) ∧
    (q ≠ .reset → (∀ prog, q ≠ .start prog) → t = s)

/-- What the host reads, in every state: `status` as 0, 1, 2 for RUN, DONE, FAIL, `cause` as 0, 1, 2 for NONE,
UnknownOpcode, OutOfRangeAddress, and `pc` itself, none of it changing the state (10 R25, R26, R36, 70 R203, R204);
and reset is taken from any state (70 R200). The last two clauses rest on a DESIGN CHOICE of the model, log 2, and not
on a rule: that a reset keeps the stream in place, and `start`, supplying a stream and resetting as one request, taken
in every state, RUN included. -/
def Obligations.HostReadsTheRegisters : Prop :=
  ∀ s : State,
    (s.status = .run → s.host .readStatus = .ok (.statusCode 0#2, s)) ∧
    (s.status = .done → s.host .readStatus = .ok (.statusCode 1#2, s)) ∧
    (s.status = .fail → s.host .readStatus = .ok (.statusCode 2#2, s)) ∧
    (s.cause = .none → s.host .readCause = .ok (.causeCode 0#2, s)) ∧
    (s.cause = .unknownOpcode → s.host .readCause = .ok (.causeCode 1#2, s)) ∧
    (s.cause = .outOfRangeAddress → s.host .readCause = .ok (.causeCode 2#2, s)) ∧
    s.host .readPc = .ok (.pcValue s.pc, s) ∧
    s.host .reset = .ok (.taken, State.startRun s.prog) ∧
    ∀ prog, s.host (.start prog) = .ok (.taken, State.startRun prog)
end

