-- ==== Sys2Proof/Laws/Decode.lean ====
section
/-!
SUPPORT. The decoder's lemmas: which records are which instructions, and the 48-bit presentation.
-/

namespace Sys2Proof

/-- Six bytes make the record of which they are the bytes. -/
theorem Record.ofBytes_eq_some (bytes : List Byte) (r : Record) : Record.ofBytes bytes = some r ↔ bytes = r.bytes := by
  constructor
  · intro h
    unfold Record.ofBytes at h
    split at h
    · simp only [Option.some.injEq] at h
      subst h
      rfl
    · simp at h
  · rintro rfl
    rfl

@[simp] theorem Record.ofBytes_bytes (r : Record) : Record.ofBytes r.bytes = some r := rfl

/-- The opcode byte selects exactly the instruction whose record it is (30 R86). -/
theorem Record.toInstr_eq_some (r : Record) (i : Instr) : r.toInstr = some i ↔ r = i.record := by
  obtain ⟨b0, b1, b2, b3, b4, b5⟩ := r
  constructor
  · intro h
    unfold Record.toInstr at h
    split_ifs at h with h1 h2 h3 h4 <;> simp_all <;> subst h <;> rfl
  · rintro h
    cases i <;> simp only [Instr.record, Record.mk.injEq] at h <;> obtain ⟨rfl, rfl, rfl, rfl, rfl, rfl⟩ := h <;> rfl

/-- No instruction is selected exactly by the 252 other opcode bytes (30 R88). -/
theorem Record.toInstr_eq_none (r : Record) :
    r.toInstr = none ↔ r.opcode ≠ 98#8 ∧ r.opcode ≠ 19#8 ∧ r.opcode ≠ 5#8 ∧ r.opcode ≠ 22#8 := by
  unfold Record.toInstr
  split_ifs <;> simp_all

/-- `decode` answers an instruction exactly on its six bytes. -/
theorem decode_eq_ok (bytes : List Byte) (i : Instr) :
    decode bytes = .ok i ↔ ∃ r : Record, bytes = r.bytes ∧ r.toInstr = some i := by
  unfold decode
  constructor
  · intro h
    split at h
    · simp at h
    · rename_i r hr
      refine ⟨r, (Record.ofBytes_eq_some _ _).1 hr, ?_⟩
      split at h
      · simp at h
      · rename_i j hj
        simp only [Except.ok.injEq] at h
        exact h ▸ hj
  · rintro ⟨r, rfl, hr⟩
    simp [hr]

end Sys2Proof
end

