-- ==== Sys2Proof/Laws/Memory.lean ====
section
/-!
SUPPORT. The laws of the Memory Store: a read after a write, and the canonical form, which every memory operation
keeps and in which equal reads mean equal stores.
-/

namespace Sys2Proof.Machine

@[simp] theorem Memory.read_nil (a : Nat) : Memory.read [] a = 0#64 := rfl

theorem Memory.read_filter_ne (m : Memory) (a b : Nat) :
    Memory.read (m.filter fun c => decide (c.1 ≠ a)) b = if b = a then 0#64 else Memory.read m b := by
  induction m with
  | nil => simp
  | cons c rest ih =>
    obtain ⟨k, w⟩ := c
    by_cases hk : k = a
    · subst hk
      have : ((k, w) :: rest).filter (fun c => decide (c.1 ≠ k)) = rest.filter fun c => decide (c.1 ≠ k) := by simp
      rw [this, ih]
      by_cases hb : b = k
      · simp [hb]
      · simp [Memory.read, hb, Ne.symm hb]
    · have : ((k, w) :: rest).filter (fun c => decide (c.1 ≠ a)) =
          (k, w) :: rest.filter fun c => decide (c.1 ≠ a) := by simp [hk]
      rw [this]
      by_cases hb : k = b
      · subst hb; simp [Memory.read, hk]
      · simp only [Memory.read, hb, if_false]; exact ih

theorem Memory.read_insert (m : Memory) (a : Nat) (v : Word) (b : Nat) (fresh : ∀ c ∈ m, c.1 ≠ a) :
    Memory.read (Memory.insert m a v) b = if b = a then v else Memory.read m b := by
  induction m with
  | nil => simp [Memory.insert, Memory.read, eq_comm]
  | cons c rest ih =>
    obtain ⟨k, w⟩ := c
    have hk : k ≠ a := fresh (k, w) (by simp)
    have ih' := ih fun c hc => fresh c (by simp [hc])
    unfold Memory.insert
    split
    · by_cases hb : b = a
      · simp [Memory.read, hb]
      · simp [Memory.read, hb, Ne.symm hb]
    · by_cases hb : k = b
      · subst hb; simp [Memory.read, hk]
      · simp only [Memory.read, hb, if_false]; exact ih'

/-- Reading after a write: the written index gives the value, every other index what it gave before (20 R61 (c)). -/
@[simp] theorem Memory.read_write (m : Memory) (a : Nat) (v : Word) (b : Nat) :
    Memory.read (Memory.write m a v) b = if b = a then v else Memory.read m b := by
  unfold Memory.write
  by_cases hv : v = 0#64
  · simp only [hv, if_true]; exact Memory.read_filter_ne m a b
  · simp only [hv, if_false]
    rw [Memory.read_insert _ _ _ _ (by simp), Memory.read_filter_ne]
    by_cases hb : b = a <;> simp [hb]

/-- Forgetting a lower bound of the canonical form. -/
theorem Memory.wfFrom_mono {m : Memory} {low low' : Nat} (h : Memory.wfFrom low m = true) (hl : low' ≤ low) :
    Memory.wfFrom low' m = true := by
  cases m with
  | nil => rfl
  | cons c rest =>
    obtain ⟨k, w⟩ := c
    simp only [Memory.wfFrom, Bool.and_eq_true, decide_eq_true_eq] at h ⊢
    exact ⟨⟨⟨by omega, h.1.1.2⟩, h.1.2⟩, h.2⟩

theorem Memory.wfFrom_filter {m : Memory} (p : Nat × Word → Bool) {low : Nat} (h : Memory.wfFrom low m = true) :
    Memory.wfFrom low (m.filter p) = true := by
  induction m generalizing low with
  | nil => simp [Memory.wfFrom]
  | cons c rest ih =>
    obtain ⟨k, w⟩ := c
    simp only [Memory.wfFrom, Bool.and_eq_true, decide_eq_true_eq] at h
    by_cases hp : p (k, w) = true
    · simp only [List.filter_cons_of_pos hp, Memory.wfFrom, Bool.and_eq_true, decide_eq_true_eq]
      exact ⟨h.1, ih h.2⟩
    · rw [List.filter_cons_of_neg hp]
      exact Memory.wfFrom_mono (ih h.2) (by omega)

theorem Memory.wfFrom_insert {m : Memory} {low a : Nat} {v : Word} (h : Memory.wfFrom low m = true)
    (fresh : ∀ c ∈ m, c.1 ≠ a) (hlow : low ≤ a) (ha : a < Config.cellCount) (hv : v ≠ 0#64) :
    Memory.wfFrom low (Memory.insert m a v) = true := by
  induction m generalizing low with
  | nil => simp [Memory.insert, Memory.wfFrom, hlow, ha, hv]
  | cons c rest ih =>
    obtain ⟨k, w⟩ := c
    simp only [Memory.wfFrom, Bool.and_eq_true, decide_eq_true_eq] at h
    have hk : k ≠ a := fresh (k, w) (by simp)
    unfold Memory.insert
    split
    · simp only [Memory.wfFrom, Bool.and_eq_true, decide_eq_true_eq]
      exact ⟨⟨⟨hlow, ha⟩, hv⟩, ⟨⟨by omega, h.1.1.2⟩, h.1.2⟩, h.2⟩
    · simp only [Memory.wfFrom, Bool.and_eq_true, decide_eq_true_eq]
      exact ⟨h.1, ih h.2 (fun c hc => fresh c (by simp [hc])) (by omega)⟩

/-- A write to a cell keeps the canonical form. -/
theorem Memory.wf_write {m : Memory} {a : Nat} (v : Word) (h : Memory.wf m = true) (ha : a < Config.cellCount) :
    Memory.wf (Memory.write m a v) = true := by
  unfold Memory.wf Memory.write at *
  by_cases hv : v = 0#64
  · simp only [hv, if_true]; exact Memory.wfFrom_filter _ h
  · simp only [hv, if_false]
    exact Memory.wfFrom_insert (Memory.wfFrom_filter _ h) (by simp) (by omega) ha hv

/-- Below its lower bound a canonical list holds nothing. -/
theorem Memory.read_of_lt {m : Memory} {low a : Nat} (h : Memory.wfFrom low m = true) (ha : a < low) :
    Memory.read m a = 0#64 := by
  induction m generalizing low with
  | nil => rfl
  | cons c rest ih =>
    obtain ⟨k, w⟩ := c
    simp only [Memory.wfFrom, Bool.and_eq_true, decide_eq_true_eq] at h
    have hk : k ≠ a := by omega
    simp only [Memory.read, hk, if_false]
    exact ih h.2 (by omega)

theorem Memory.eq_of_wfFrom {m n : Memory} {low : Nat} (hm : Memory.wfFrom low m = true)
    (hn : Memory.wfFrom low n = true) (h : ∀ a, Memory.read m a = Memory.read n a) : m = n := by
  induction m generalizing n low with
  | nil =>
    cases n with
    | nil => rfl
    | cons d rest =>
      obtain ⟨k, w⟩ := d
      simp only [Memory.wfFrom, Bool.and_eq_true, decide_eq_true_eq] at hn
      exact absurd (by simpa [Memory.read] using (h k).symm) hn.1.2
  | cons c rest ih =>
    obtain ⟨k, w⟩ := c
    simp only [Memory.wfFrom, Bool.and_eq_true, decide_eq_true_eq] at hm
    cases n with
    | nil => exact absurd (by simpa [Memory.read] using h k) hm.1.2
    | cons d rest' =>
      obtain ⟨k', w'⟩ := d
      simp only [Memory.wfFrom, Bool.and_eq_true, decide_eq_true_eq] at hn
      have hkk : k = k' := by
        rcases Nat.lt_trichotomy k k' with hlt | heq | hlt
        · have h1 := h k
          have h2 : Memory.read rest' k = 0#64 := Memory.read_of_lt hn.2 (by omega)
          have h3 : k' ≠ k := by omega
          simp only [Memory.read, if_true, h3, if_false, h2] at h1
          exact absurd h1 hm.1.2
        · exact heq
        · have h1 := h k'
          have h2 : Memory.read rest k' = 0#64 := Memory.read_of_lt hm.2 (by omega)
          have h3 : k ≠ k' := by omega
          simp only [Memory.read, if_true, h3, if_false, h2] at h1
          exact absurd h1.symm hn.1.2
      subst hkk
      have hw : w = w' := by simpa [Memory.read] using h k
      subst hw
      congr 1
      refine ih hm.2 hn.2 fun a => ?_
      by_cases ha : k = a
      · subst ha
        rw [Memory.read_of_lt hm.2 (by omega), Memory.read_of_lt hn.2 (by omega)]
      · simpa [Memory.read, ha] using h a

/-- Stores in canonical form that read the same everywhere are the same list. -/
theorem Memory.eq_of_read {m n : Memory} (hm : Memory.wf m = true) (hn : Memory.wf n = true)
    (h : ∀ a, Memory.read m a = Memory.read n a) : m = n := Memory.eq_of_wfFrom hm hn h

@[simp] theorem Memory.wf_nil : Memory.wf [] = true := rfl

end Sys2Proof.Machine
end

