-- ==== Sys2Proof/Laws/State.lean ====
section
/-!
SUPPORT. One lemma per field per update of State, and what reset leaves in each field.
-/

namespace Sys2Proof.Machine

@[simp] theorem State.withM_m (s : State) (x : Memory) : (s.withM x).m = x := rfl
@[simp] theorem State.withM_pc (s : State) (x : Memory) : (s.withM x).pc = s.pc := rfl
@[simp] theorem State.withM_status (s : State) (x : Memory) : (s.withM x).status = s.status := rfl
@[simp] theorem State.withM_cause (s : State) (x : Memory) : (s.withM x).cause = s.cause := rfl
@[simp] theorem State.withM_prog (s : State) (x : Memory) : (s.withM x).prog = s.prog := rfl

@[simp] theorem State.withPc_m (s : State) (x : Nat) : (s.withPc x).m = s.m := rfl
@[simp] theorem State.withPc_pc (s : State) (x : Nat) : (s.withPc x).pc = x := rfl
@[simp] theorem State.withPc_status (s : State) (x : Nat) : (s.withPc x).status = s.status := rfl
@[simp] theorem State.withPc_cause (s : State) (x : Nat) : (s.withPc x).cause = s.cause := rfl
@[simp] theorem State.withPc_prog (s : State) (x : Nat) : (s.withPc x).prog = s.prog := rfl

@[simp] theorem State.withStatus_m (s : State) (x : Status) : (s.withStatus x).m = s.m := rfl
@[simp] theorem State.withStatus_pc (s : State) (x : Status) : (s.withStatus x).pc = s.pc := rfl
@[simp] theorem State.withStatus_status (s : State) (x : Status) : (s.withStatus x).status = x := rfl
@[simp] theorem State.withStatus_cause (s : State) (x : Status) : (s.withStatus x).cause = s.cause := rfl
@[simp] theorem State.withStatus_prog (s : State) (x : Status) : (s.withStatus x).prog = s.prog := rfl

@[simp] theorem State.withCause_m (s : State) (x : Cause) : (s.withCause x).m = s.m := rfl
@[simp] theorem State.withCause_pc (s : State) (x : Cause) : (s.withCause x).pc = s.pc := rfl
@[simp] theorem State.withCause_status (s : State) (x : Cause) : (s.withCause x).status = s.status := rfl
@[simp] theorem State.withCause_cause (s : State) (x : Cause) : (s.withCause x).cause = x := rfl
@[simp] theorem State.withCause_prog (s : State) (x : Cause) : (s.withCause x).prog = s.prog := rfl

@[simp] theorem State.withProg_m (s : State) (x : List Byte) : (s.withProg x).m = s.m := rfl
@[simp] theorem State.withProg_pc (s : State) (x : List Byte) : (s.withProg x).pc = s.pc := rfl
@[simp] theorem State.withProg_status (s : State) (x : List Byte) : (s.withProg x).status = s.status := rfl
@[simp] theorem State.withProg_cause (s : State) (x : List Byte) : (s.withProg x).cause = s.cause := rfl
@[simp] theorem State.withProg_prog (s : State) (x : List Byte) : (s.withProg x).prog = x := rfl

@[simp] theorem State.reset_m : State.reset.m = [] := rfl
@[simp] theorem State.reset_pc : State.reset.pc = 0 := rfl
@[simp] theorem State.reset_status : State.reset.status = .run := rfl
@[simp] theorem State.reset_cause : State.reset.cause = .none := rfl
@[simp] theorem State.reset_prog : State.reset.prog = [] := rfl

/-- Two states are equal when their five fields are. -/
theorem State.ext_fields {s t : State} (hm : s.m = t.m) (hpc : s.pc = t.pc) (hst : s.status = t.status)
    (hc : s.cause = t.cause) (hp : s.prog = t.prog) : s = t := by
  cases s; cases t; simp_all

end Sys2Proof.Machine
end

