-- ==== Sys2Proof/Laws/Ops.lean ====
section
/-!
SUPPORT. One lemma per shared operation, saying all it does.
-/

namespace Sys2Proof.Machine

@[simp] theorem State.retire_m (s : State) : s.retire.m = s.m := rfl
@[simp] theorem State.retire_pc (s : State) : s.retire.pc = s.pc + 1 := rfl
@[simp] theorem State.retire_status (s : State) : s.retire.status = s.status := rfl
@[simp] theorem State.retire_cause (s : State) : s.retire.cause = s.cause := rfl
@[simp] theorem State.retire_prog (s : State) : s.retire.prog = s.prog := rfl

@[simp] theorem State.halt_m (s : State) : s.halt.m = s.m := rfl
@[simp] theorem State.halt_pc (s : State) : s.halt.pc = s.pc := rfl
@[simp] theorem State.halt_status (s : State) : s.halt.status = .done := rfl
@[simp] theorem State.halt_cause (s : State) : s.halt.cause = s.cause := rfl
@[simp] theorem State.halt_prog (s : State) : s.halt.prog = s.prog := rfl

@[simp] theorem State.raise_m (s : State) (f : Raised) : (s.raise f).m = s.m := rfl
@[simp] theorem State.raise_pc (s : State) (f : Raised) : (s.raise f).pc = s.pc := rfl
@[simp] theorem State.raise_status (s : State) (f : Raised) : (s.raise f).status = .fail := rfl
@[simp] theorem State.raise_cause (s : State) (f : Raised) : (s.raise f).cause = f.cause := rfl
@[simp] theorem State.raise_prog (s : State) (f : Raised) : (s.raise f).prog = s.prog := rfl

@[simp] theorem State.applyReset_prog (s : State) : s.applyReset.prog = s.prog := rfl

theorem Raised.cause_ne_none (f : Raised) : f.cause ≠ .none := by cases f <;> simp [Raised.cause]

theorem inStore_iff (addr : Int) : inStore addr = true ↔ 0 ≤ addr ∧ addr < 256 := by
  rw [inStore, Bool.and_eq_true, decide_eq_true_eq, decide_eq_true_eq]
  exact Iff.rfl

/-- The indirect read answers inside [0, 256), and there with the cell's content. -/
theorem State.memRead_eq_some (s : State) (addr : Int) (v : Word) :
    s.memRead addr = some v ↔ (0 ≤ addr ∧ addr < 256) ∧ v = Memory.read s.m addr.toNat := by
  unfold State.memRead
  by_cases h : inStore addr = true
  · simp [h, ← inStore_iff, eq_comm]
  · simp [h, ← inStore_iff]

theorem State.memRead_eq_none (s : State) (addr : Int) : s.memRead addr = none ↔ ¬(0 ≤ addr ∧ addr < 256) := by
  rw [← inStore_iff]
  unfold State.memRead
  by_cases h : inStore addr = true <;> simp [h]

/-- The indirect write answers inside [0, 256), and there with the one cell written. -/
theorem State.memWrite_eq_some (s : State) (addr : Int) (v : Word) (t : State) :
    s.memWrite addr v = some t ↔ (0 ≤ addr ∧ addr < 256) ∧ t = s.withM (Memory.write s.m addr.toNat v) := by
  unfold State.memWrite
  by_cases h : inStore addr = true
  · simp [h, ← inStore_iff, eq_comm]
  · simp [h, ← inStore_iff]

theorem State.memWrite_eq_none (s : State) (addr : Int) (v : Word) :
    s.memWrite addr v = none ↔ ¬(0 ≤ addr ∧ addr < 256) := by
  rw [← inStore_iff]
  unfold State.memWrite
  by_cases h : inStore addr = true <;> simp [h]

/-- A list that has six elements to take is six elements and a rest. -/
theorem six_of_length {l : List Byte} (h : 6 ≤ l.length) :
    ∃ b0 b1 b2 b3 b4 b5 rest, l = b0 :: b1 :: b2 :: b3 :: b4 :: b5 :: rest := by
  match l, h with
  | b0 :: b1 :: b2 :: b3 :: b4 :: b5 :: rest, _ => exact ⟨b0, b1, b2, b3, b4, b5, rest, rfl⟩

/-- Fetch finds nothing exactly when fewer than six bytes remain (40 R111). -/
theorem State.fetch_eq_none (s : State) : s.fetch = none ↔ s.prog.length < 6 * s.pc + 6 := by
  have hl : (s.prog.drop (6 * s.pc)).length = s.prog.length - 6 * s.pc := List.length_drop
  unfold State.fetch Config.recordBytes
  constructor
  · intro h
    by_contra hge
    obtain ⟨b0, b1, b2, b3, b4, b5, rest, heq⟩ := six_of_length (l := s.prog.drop (6 * s.pc)) (by omega)
    simp [heq] at h
  · intro h
    split
    · rename_i heq
      rw [heq] at hl
      simp at hl
      omega
    · rfl

/-- What fetch finds is the six bytes from offset `6 * pc` on (40 R112). -/
theorem State.fetch_eq_some (s : State) (r : Record) :
    s.fetch = some r ↔ (s.prog.drop (6 * s.pc)).take 6 = r.bytes := by
  unfold State.fetch Config.recordBytes
  constructor
  · intro h
    split at h
    · rename_i heq
      rw [heq]
      simp only [Option.some.injEq] at h
      subst h
      rfl
    · simp at h
  · intro h
    have hlen : 6 ≤ (s.prog.drop (6 * s.pc)).length := by
      have := congrArg List.length h
      have hb : r.bytes.length = 6 := rfl
      rw [List.length_take] at this
      omega
    obtain ⟨b0, b1, b2, b3, b4, b5, rest, heq⟩ := six_of_length hlen
    rw [heq] at h
    rw [heq]
    simp [Record.bytes] at h
    simp [h]

end Sys2Proof.Machine
end

