-- ==== Sys2Proof/Laws/Operands.lean ====
section
/-!
SUPPORT. One lemma per operand form, effective address and value computed.
-/

namespace Sys2Proof.Machine

@[simp] theorem zext64_toNat (b : Byte) : (zext64 b).toNat = b.toNat := by
  have := b.isLt
  simp only [zext64, BitVec.toNat_setWidth]
  omega

@[simp] theorem State.directWrite_m (s : State) (f : Byte) (v : Word) :
    (s.directWrite f v).m = Memory.write s.m f.toNat v := rfl
@[simp] theorem State.directWrite_pc (s : State) (f : Byte) (v : Word) : (s.directWrite f v).pc = s.pc := rfl
@[simp] theorem State.directWrite_status (s : State) (f : Byte) (v : Word) :
    (s.directWrite f v).status = s.status := rfl
@[simp] theorem State.directWrite_cause (s : State) (f : Byte) (v : Word) : (s.directWrite f v).cause = s.cause := rfl
@[simp] theorem State.directWrite_prog (s : State) (f : Byte) (v : Word) : (s.directWrite f v).prog = s.prog := rfl

/-- A field is an index of the Memory Store, whatever its value (20 R51). -/
theorem field_lt_cellCount (f : Byte) : f.toNat < Config.cellCount := f.isLt

/-- An address formed by the exact sum is the sum of the two naturals (41 R134). -/
theorem indirectOffsetAddress_eq (base : Word) (offset : Byte) :
    indirectOffsetAddress base offset = ((base.toNat + offset.toNat : Nat) : Int) := rfl

/-- An indirect read at a natural address below 256 (20 R52). -/
theorem State.memRead_of_lt (s : State) {a : Nat} (h : a < 256) :
    s.memRead (a : Int) = some (Memory.read s.m a) := by
  rw [State.memRead_eq_some, Int.toNat_natCast]
  exact ⟨by omega, rfl⟩

/-- An indirect read at a natural address from 256 on (20 R52). -/
theorem State.memRead_of_ge (s : State) {a : Nat} (h : 256 ≤ a) : s.memRead (a : Int) = none := by
  rw [State.memRead_eq_none]
  omega

/-- An indirect write at a natural address below 256 (20 R52). -/
theorem State.memWrite_of_lt (s : State) {a : Nat} (v : Word) (h : a < 256) :
    s.memWrite (a : Int) v = some (s.withM (Memory.write s.m a v)) := by
  rw [State.memWrite_eq_some, Int.toNat_natCast]
  exact ⟨by omega, rfl⟩

/-- An indirect write at a natural address from 256 on (20 R52). -/
theorem State.memWrite_of_ge (s : State) {a : Nat} (v : Word) (h : 256 ≤ a) : s.memWrite (a : Int) v = none := by
  rw [State.memWrite_eq_none]
  omega

/-- The bits of eight bytes joined, the last one lowest. -/
theorem getLsbD_join8 (x7 x6 x5 x4 x3 x2 x1 x0 : Byte) (j : Nat) :
    (x7 ++ x6 ++ x5 ++ x4 ++ x3 ++ x2 ++ x1 ++ x0).getLsbD j =
      if j < 8 then x0.getLsbD j else if j < 16 then x1.getLsbD (j - 8)
      else if j < 24 then x2.getLsbD (j - 16) else if j < 32 then x3.getLsbD (j - 24)
      else if j < 40 then x4.getLsbD (j - 32) else if j < 48 then x5.getLsbD (j - 40)
      else if j < 56 then x6.getLsbD (j - 48) else x7.getLsbD (j - 56) := by
  simp only [BitVec.getLsbD_append, Nat.sub_sub]
  split_ifs <;> first | rfl | omega

/-- Bit `j` of a byte-swapped value is the bit at the same place of the mirrored byte (42 R150). -/
theorem bswap64_getLsbD (v : Word) (j : Nat) (hj : j < 64) :
    (bswap64 v).getLsbD j = v.getLsbD (8 * (7 - j / 8) + j % 8) := by
  refine (getLsbD_join8 _ _ _ _ _ _ _ _ j).trans ?_
  interval_cases j <;> simp

end Sys2Proof.Machine
end

