-- ==== Sys2Proof/Laws/Exec.lean ====
section
/-!
SUPPORT. What each meaning can do, and what executing any instruction can do.
-/

namespace Sys2Proof.Machine

/-- LoadIndirectOffset retires with one cell written where its address is in range (41 R133). -/
theorem execLoadIndirectOffset_of_inRange (op1 op2 op3 op4 op5 : Byte) (s : State)
    (h : (Memory.read s.m op2.toNat).toNat + op3.toNat < 256) :
    execLoadIndirectOffset op1 op2 op3 op4 op5 s = .next
      (s.directWrite op1 (Memory.read s.m ((Memory.read s.m op2.toNat).toNat + op3.toNat))).retire := by
  unfold execLoadIndirectOffset State.directRead
  rw [indirectOffsetAddress_eq, State.memRead_of_lt s h]

/-- LoadIndirectOffset raises where its address is out of range (41 R133). -/
theorem execLoadIndirectOffset_of_outOfRange (op1 op2 op3 op4 op5 : Byte) (s : State)
    (h : 256 ≤ (Memory.read s.m op2.toNat).toNat + op3.toNat) :
    execLoadIndirectOffset op1 op2 op3 op4 op5 s = .next (s.raise .outOfRangeAddress) := by
  unfold execLoadIndirectOffset State.directRead
  rw [indirectOffsetAddress_eq, State.memRead_of_ge s h]

/-- StoreIndirect retires with one cell written where its pointer is in range (41 R137). -/
theorem execStoreIndirect_of_inRange (op1 op2 op3 op4 op5 : Byte) (s : State)
    (h : (Memory.read s.m op1.toNat).toNat < 256) :
    execStoreIndirect op1 op2 op3 op4 op5 s = .next
      (s.withM (Memory.write s.m (Memory.read s.m op1.toNat).toNat (Memory.read s.m op2.toNat))).retire := by
  unfold execStoreIndirect State.directRead indirectAddress
  rw [State.memWrite_of_lt s _ h]

/-- StoreIndirect raises where its pointer is out of range (41 R137). -/
theorem execStoreIndirect_of_outOfRange (op1 op2 op3 op4 op5 : Byte) (s : State)
    (h : 256 ≤ (Memory.read s.m op1.toNat).toNat) :
    execStoreIndirect op1 op2 op3 op4 op5 s = .next (s.raise .outOfRangeAddress) := by
  unfold execStoreIndirect State.directRead indirectAddress
  rw [State.memWrite_of_ge s _ h]

/-- The values an instruction can write: an immediate, a cell's value, or a cell's value byte-swapped (10 R34). -/
def WrittenValue (m : Memory) (v : Word) : Prop :=
  (∃ b, v = zext64 b) ∨ (∃ a, v = Memory.read m a) ∨ (∃ a, v = bswap64 (Memory.read m a))

/-- Executing an instruction either writes one cell and retires, or raises OutOfRangeAddress (40 R110, R116). -/
theorem exec_cases (i : Instr) (s : State) :
    (∃ a v, a < Config.cellCount ∧ WrittenValue s.m v ∧ exec i s = .next (s.withM (Memory.write s.m a v)).retire) ∨
      exec i s = .next (s.raise .outOfRangeAddress) := by
  cases i with
  | set op1 op2 op3 op4 op5 => exact .inl ⟨op2.toNat, _, op2.isLt, .inl ⟨op1, rfl⟩, rfl⟩
  | loadIndirectOffset op1 op2 op3 op4 op5 =>
    by_cases h : (Memory.read s.m op2.toNat).toNat + op3.toNat < 256
    · exact .inl ⟨op1.toNat, _, op1.isLt, .inr (.inl ⟨_, rfl⟩),
        execLoadIndirectOffset_of_inRange op1 op2 op3 op4 op5 s h⟩
    · exact .inr (execLoadIndirectOffset_of_outOfRange op1 op2 op3 op4 op5 s (by omega))
  | storeIndirect op1 op2 op3 op4 op5 =>
    by_cases h : (Memory.read s.m op1.toNat).toNat < 256
    · exact .inl ⟨_, _, h, .inr (.inl ⟨_, rfl⟩), execStoreIndirect_of_inRange op1 op2 op3 op4 op5 s h⟩
    · exact .inr (execStoreIndirect_of_outOfRange op1 op2 op3 op4 op5 s (by omega))
  | byteSwap64 op1 op2 op3 op4 op5 => exact .inl ⟨op1.toNat, _, op1.isLt, .inr (.inr ⟨_, rfl⟩), rfl⟩

end Sys2Proof.Machine
end

