-- ==== Sys2Proof/Laws/PerInstr.lean ====
section
/-!
SUPPORT. Facts about every instruction as syntax, one lemma per constructor.
-/

namespace Sys2Proof.Laws.RecordShape

/-- An instruction is six bytes, the first its own opcode and one of the four, the other five its operands in field
order (30 R80, R85, R86). -/
def Statement (i : Instr) : Prop :=
  (encode i).length = Config.recordBytes ∧ (encode i).head? = some i.opcode ∧
    i.opcode ∈ [98#8, 19#8, 5#8, 22#8] ∧
    (encode i).tail = [i.record.op1, i.record.op2, i.record.op3, i.record.op4, i.record.op5]

theorem set (op1 op2 op3 op4 op5 : Byte) : Statement (.set op1 op2 op3 op4 op5) := ⟨rfl, rfl, by simp [Instr.opcode], rfl⟩

theorem loadIndirectOffset (op1 op2 op3 op4 op5 : Byte) : Statement (.loadIndirectOffset op1 op2 op3 op4 op5) :=
  ⟨rfl, rfl, by simp [Instr.opcode], rfl⟩

theorem storeIndirect (op1 op2 op3 op4 op5 : Byte) : Statement (.storeIndirect op1 op2 op3 op4 op5) :=
  ⟨rfl, rfl, by simp [Instr.opcode], rfl⟩

theorem byteSwap64 (op1 op2 op3 op4 op5 : Byte) : Statement (.byteSwap64 op1 op2 op3 op4 op5) :=
  ⟨rfl, rfl, by simp [Instr.opcode], rfl⟩

end Sys2Proof.Laws.RecordShape
end

