-- ==== Sys2Proof/Laws/Step.lean ====
section
/-!
SUPPORT. What one step can do, said once.
-/

namespace Sys2Proof.Machine

/-- A step with a next state starts in RUN and halts, raises UnknownOpcode, or executes the record at `pc`
(40 R110). -/
theorem step_cases {s t : State} (h : step s = .next t) :
    s.status = .run ∧
      ((s.fetch = none ∧ t = s.halt) ∨
        (∃ r, s.fetch = some r ∧ r.toInstr = none ∧ t = s.raise .unknownOpcode) ∨
        (∃ r i, s.fetch = some r ∧ r.toInstr = some i ∧ exec i s = .next t)) := by
  unfold step at h
  cases hs : s.status with
  | done => simp [hs] at h
  | fail => simp [hs] at h
  | run =>
    simp only [hs] at h
    refine ⟨rfl, ?_⟩
    unfold State.stepRunning at h
    cases hf : s.fetch with
    | none =>
      simp only [hf, Host.Outcome.next.injEq] at h
      exact .inl ⟨rfl, h.symm⟩
    | some r =>
      simp only [hf, State.runRecord] at h
      cases hr : r.toInstr with
      | none =>
        simp only [hr, Host.Outcome.next.injEq] at h
        exact .inr (.inl ⟨r, rfl, hr, h.symm⟩)
      | some i => exact .inr (.inr ⟨r, i, rfl, hr, by simpa [hr] using h⟩)

/-- The unknown records are those with another opcode byte (30 R88). -/
theorem toInstr_eq_none_iff (r : Record) : r.toInstr = none ↔ ¬KnownOpcode r.opcode := by
  rw [Record.toInstr_eq_none]
  unfold KnownOpcode
  tauto

/-- An instruction that raises is a load or store whose address is out of range (60 R172). -/
theorem exec_raises {i : Instr} {s : State} (h : exec i s = .next (s.raise .outOfRangeAddress)) :
    AddressOutOfRange s.m i.record := by
  have pcs : ∀ o : Host.Outcome State Fault Refusal, o = .next (s.raise .outOfRangeAddress) →
      (match o with | .next t => t.pc | _ => 0 : Nat) = s.pc := by
    rintro _ rfl
    rfl
  cases i with
  | set a b c d e =>
    have := pcs _ h
    simp [exec, execSet] at this
  | byteSwap64 a b c d e =>
    have := pcs _ h
    simp [exec, execByteSwap64] at this
  | loadIndirectOffset a b c d e =>
    refine .inl ⟨rfl, ?_⟩
    by_contra hlt
    have := pcs _ ((execLoadIndirectOffset_of_inRange a b c d e s (Nat.lt_of_not_le hlt)).symm.trans h)
    simp at this
  | storeIndirect a b c d e =>
    refine .inr ⟨rfl, ?_⟩
    by_contra hlt
    have := pcs _ ((execStoreIndirect_of_inRange a b c d e s (Nat.lt_of_not_le hlt)).symm.trans h)
    simp at this

/-- Everything one step can do: write one cell and retire, halt, or enter one of the two faults, each with what was
fetched. The other facts about a step follow from this (40 R110). -/
theorem step_outcomes {s t : State} (h : step s = .next t) :
    s.status = .run ∧
      ((∃ r i a v, s.fetch = some r ∧ r.toInstr = some i ∧ a < Config.cellCount ∧ WrittenValue s.m v ∧
          t = (s.withM (Memory.write s.m a v)).retire) ∨
        (s.fetch = none ∧ t = s.halt) ∨
        (∃ r, s.fetch = some r ∧ ¬KnownOpcode r.opcode ∧ t = s.raise .unknownOpcode) ∨
        (∃ r, s.fetch = some r ∧ AddressOutOfRange s.m r ∧ t = s.raise .outOfRangeAddress)) := by
  obtain ⟨hs, hh | ⟨r, hf, hr, rfl⟩ | ⟨r, i, hf, hr, he⟩⟩ := step_cases h
  · exact ⟨hs, .inr (.inl hh)⟩
  · exact ⟨hs, .inr (.inr (.inl ⟨r, hf, (toInstr_eq_none_iff r).1 hr, rfl⟩))⟩
  · refine ⟨hs, ?_⟩
    rcases exec_cases i s with ⟨a, v, ha, hv, hw⟩ | hw
    · rw [hw, Host.Outcome.next.injEq] at he
      exact .inl ⟨r, i, a, v, hf, hr, ha, hv, he.symm⟩
    · have hrec := (Record.toInstr_eq_some r i).1 hr
      have hout := exec_raises hw
      rw [hw, Host.Outcome.next.injEq] at he
      exact .inr (.inr (.inr ⟨r, hf, hrec ▸ hout, he.symm⟩))

/-- A state that has ended has no next state (40 R110). -/
theorem no_step_of_ended {s : State} (h : s.Ended) (t : State) : step s ≠ .next t := fun ht => h (step_cases ht).1

/-- No step changes the stream (10 R30). -/
theorem step_prog {s t : State} (h : step s = .next t) : t.prog = s.prog := by
  obtain ⟨-, ⟨r, i, a, v, -, -, -, -, rfl⟩ | ⟨-, rfl⟩ | ⟨r, -, -, rfl⟩ | ⟨r, -, -, rfl⟩⟩ := step_outcomes h <;> rfl

/-- What a step from RUN does, by what it fetches. -/
theorem step_run {s : State} (h : s.status = .run) :
    step s = match s.fetch with
      | none => .next s.halt
      | some r => s.runRecord r := by
  simp only [step, h]
  rfl

/-- The next step of `s.withFetchWord nbits w` runs the record of that table word (log 6). -/
theorem withFetchWord_fetch (s : State) (nbits w : Nat) :
    (s.withFetchWord nbits w).fetch = some (Record.ofTableWord nbits w) := by
  rw [State.fetch_eq_some]
  unfold State.withFetchWord Config.recordBytes
  simp only [State.withCause_prog, State.withCause_pc, State.withStatus_prog, State.withStatus_pc,
    State.withProg_prog, State.withProg_pc]
  have hlen : (s.prog.take (6 * s.pc) ++ List.replicate (6 * s.pc - s.prog.length) (0#8 : Byte)).length =
      6 * s.pc := by
    simp
    omega
  rw [List.append_assoc, List.drop_left' hlen]
  simp [Record.bytes]

end Sys2Proof.Machine
end

