-- ==== Sys2Proof/Laws/Run.lean ====
section
/-!
SUPPORT. The unfoldings of a run, one step at a time, and that counting steps here is the host's counting.
-/

namespace Sys2Proof.Machine

@[simp] theorem State.afterSteps_zero (s : State) : s.afterSteps 0 = some s := rfl

theorem State.afterSteps_succ_of_next {s t : State} (n : Nat) (h : step s = .next t) :
    s.afterSteps (n + 1) = t.afterSteps n := by
  simp [State.afterSteps, h]

theorem State.afterSteps_succ_of_ended {s : State} (n : Nat) (h : s.Ended) : s.afterSteps (n + 1) = none := by
  have := no_step_of_ended h
  unfold State.afterSteps
  cases hs : step s with
  | next t => exact absurd hs (this t)
  | fault r => rfl
  | refused r => rfl

theorem State.runFor_succ_of_next {s t : State} (n : Nat) (h : step s = .next t) :
    State.runFor (n + 1) s = State.runFor n t := by
  simp [State.runFor, h]

/-- Running further from an ended state changes nothing (60 R191). -/
theorem State.runFor_of_ended {s : State} (n : Nat) (h : s.Ended) : State.runFor n s = s := by
  cases n with
  | zero => rfl
  | succ n =>
    have := no_step_of_ended h
    unfold State.runFor
    cases hs : step s with
    | next t => exact absurd hs (this t)
    | fault r => rfl
    | refused r => rfl

/-- `n` steps in the host's sense, with a next state, are `n` steps in the model's. -/
theorem core_run_eq_next (n : Nat) (s t : State) :
    Host.Core.run Sys2Proof.core n s = .next t ↔ s.afterSteps n = some t := by
  induction n generalizing s with
  | zero =>
    rw [State.afterSteps_zero, Option.some.injEq]
    exact Host.Outcome.next.injEq s t ▸ Iff.rfl
  | succ n ih =>
    unfold State.afterSteps
    cases hs : step s with
    | next u =>
      have hc : Sys2Proof.core.step s = Host.Outcome.next u := hs
      simp only [Host.Core.run, hc]
      exact ih u
    | fault r =>
      have hc : Sys2Proof.core.step s = Host.Outcome.fault r := hs
      simp only [Host.Core.run, hc]
      exact ⟨fun h => (nomatch h), fun h => (nomatch h)⟩
    | refused r =>
      have hc : Sys2Proof.core.step s = Host.Outcome.refused r := hs
      simp only [Host.Core.run, hc]
      exact ⟨fun h => (nomatch h), fun h => (nomatch h)⟩

end Sys2Proof.Machine
end

