-- ==== Sys2Proof/Machine/AsmText.lean ====
section
/-!
DEFINITION. The text of the spec's assembly (30 R91): how a line is printed and how it is read. Software's view of
a record; nothing in the machine depends on it (92 D10; log 12).
-/

namespace Sys2Proof.Machine

/-- One hexadecimal digit, capitals as in the spec's byte listings (00 R7). -/
def hexDigit (n : Nat) : Char := ("0123456789ABCDEF".toList).getD (n % 16) '0'

/-- A byte as a two-digit hexadecimal group (00 R7). -/
def hexByte (n : Nat) : String := String.ofList [hexDigit (n / 16), hexDigit n]

/-- An assembly line as text: operands in decimal, the bytes of a directive as two-digit groups (30 R91, 00 R7). -/
def printLine (a : AsmStmt) : String :=
  match a with
  | .set a b => "Set " ++ toString a ++ ", " ++ toString b
  | .loadIndirectOffset a b c =>
    "LoadIndirectOffset " ++ toString a ++ ", " ++ toString b ++ ", " ++ toString c
  | .storeIndirect a b => "StoreIndirect " ++ toString a ++ ", " ++ toString b
  | .byteSwap64 a b => "ByteSwap64 " ++ toString a ++ ", " ++ toString b
  | .rawRecord b0 b1 b2 b3 b4 b5 =>
    ".rec " ++ hexByte b0 ++ " " ++ hexByte b1 ++ " " ++ hexByte b2 ++ " " ++ hexByte b3 ++ " " ++ hexByte b4 ++
      " " ++ hexByte b5
  | .rawByte b => ".byte " ++ hexByte b

/-- The value of a digit, decimal or hexadecimal of either case. -/
def digitValue (c : Char) : Option Nat :=
  if '0' ≤ c ∧ c ≤ '9' then some (c.toNat - '0'.toNat)
  else if 'a' ≤ c ∧ c ≤ 'f' then some (c.toNat - 'a'.toNat + 10)
  else if 'A' ≤ c ∧ c ≤ 'F' then some (c.toNat - 'A'.toNat + 10)
  else none

/-- The number a list of digits writes in a base, after the digits read so far. -/
def digitsValue (base : Nat) : Nat → List Char → Option Nat
  | acc, [] => some acc
  | acc, c :: rest =>
    match digitValue c with
    | some d => if d < base then digitsValue base (acc * base + d) rest else none
    | none => none

/-- An operand: decimal, or hexadecimal after `0x` (30 R91). -/
def parseOperand : List Char → Option Nat
  | [] => none
  | '0' :: 'x' :: [] => none
  | '0' :: 'x' :: ds => digitsValue 16 0 ds
  | ds => digitsValue 10 0 ds

/-- A byte of `.rec` or `.byte`: a two-digit hexadecimal group, as the spec's programs write them (00 R7), or an
operand after `0x`. -/
def parseByte : List Char → Option Nat
  | '0' :: 'x' :: ds => parseOperand ('0' :: 'x' :: ds)
  | [a, b] => digitsValue 16 0 [a, b]
  | _ => none

/-- The part of a line before a `;` comment (30 R91). -/
def beforeComment (line : List Char) : List Char := line.takeWhile fun c => decide (c ≠ ';')

/-- End a word: nothing if no letter of it has been read. -/
def closeWord (word : List Char) (rest : List (List Char)) : List (List Char) :=
  if word = [] then rest else word.reverse :: rest

/-- The words of a line, a comma being a word of its own; `word` holds the current word, last letter first. -/
def words : List Char → List Char → List (List Char)
  | word, [] => closeWord word []
  | word, ' ' :: rest => closeWord word (words [] rest)
  | word, ',' :: rest => closeWord word ([','] :: words [] rest)
  | word, c :: rest => words (c :: word) rest

/-- Two operands as an assembly line. -/
def parseTwo (f : Nat → Nat → AsmStmt) (a b : List Char) : Option AsmStmt :=
  match parseOperand a, parseOperand b with
  | some x, some y => some (f x y)
  | _, _ => none

/-- Three operands as an assembly line. -/
def parseThree (f : Nat → Nat → Nat → AsmStmt) (a b c : List Char) : Option AsmStmt :=
  match parseOperand a, parseOperand b, parseOperand c with
  | some x, some y, some z => some (f x y z)
  | _, _, _ => none

/-- The statement a line's words write: mnemonics spelled exactly as in the source's table (30 R91). -/
def parseWords (ws : List (List Char)) : Option AsmStmt :=
  match ws with
  | [m, a, [','], b] =>
    if m = "Set".toList then parseTwo .set a b
    else if m = "StoreIndirect".toList then parseTwo .storeIndirect a b
    else if m = "ByteSwap64".toList then parseTwo .byteSwap64 a b
    else none
  | [m, a, [','], b, [','], c] =>
    if m = "LoadIndirectOffset".toList then parseThree .loadIndirectOffset a b c else none
  | [m, b0, b1, b2, b3, b4, b5] =>
    if m = ".rec".toList then
      match [b0, b1, b2, b3, b4, b5].mapM parseByte with
      | some [x0, x1, x2, x3, x4, x5] => some (.rawRecord x0 x1 x2 x3 x4 x5)
      | _ => none
    else none
  | [m, b] => if m = ".byte".toList then (parseByte b).map .rawByte else none
  | _ => none

/-- The statements of one line: none on a blank or comment line, one otherwise; no value for a line outside the
syntax, or with an operand above 255 (30 R91). -/
def parseLine (line : String) : Option (List AsmStmt) :=
  match words [] (beforeComment line.toList) with
  | [] => some []
  | ws =>
    match parseWords ws with
    | some a => if a.wellFormed then some [a] else none
    | none => none

/-- The stream a program text assembles to, given line by line (30 R91). -/
def assembleText (lines : List String) : Option (List Byte) :=
  (lines.mapM parseLine).map fun stmts => assembleAll stmts.flatten

end Sys2Proof.Machine
end

