-- ==== Sys2Proof/Tests/Slice0.lean ====
section
/-!
SUPPORT. Small tests: expected values are the spec's own vectors (95_test_vectors.md) or hand calculation from the
rule cited; and, for every statement with hypotheses, a concrete state and operands that meet them.
-/

namespace Sys2Proof.Tests

open Sys2Proof Sys2Proof.Machine

/-- The next state of an outcome, if it is one. -/
def nextOf (o : Host.Outcome State Fault Refusal) : Option State :=
  match o with
  | .next t => some t
  | .fault _ => none
  | .refused _ => none

theorem eq_next_of_nextOf {o : Host.Outcome State Fault Refusal} {t : State} (h : nextOf o = some t) : o = .next t := by
  cases o with
  | next u => exact congrArg _ (Option.some.inj h)
  | fault r => exact nomatch h
  | refused r => exact nomatch h

/-- The reset state with some cells and a stream. -/
def small (m : Memory) (prog : List Byte) : State := (State.reset.withM m).withProg prog

/-- `Set 7, 3` as it stands in the stream (95 S1). -/
def setRecord : List Byte := [0x62#8, 0x07#8, 0x03#8, 0x00#8, 0x00#8, 0x00#8]

/-! ### Well-formedness: an ill-formed term for each check -/

theorem test_wellFormed_at_255 : (AsmStmt.set 255 0).wellFormed = true := by decide
theorem test_illFormed_set : (AsmStmt.set 256 0).wellFormed = false ∧ (AsmStmt.set 0 256).wellFormed = false := by decide
theorem test_illFormed_loadIndirectOffset :
    (AsmStmt.loadIndirectOffset 256 0 0).wellFormed = false ∧ (AsmStmt.loadIndirectOffset 0 256 0).wellFormed = false ∧
      (AsmStmt.loadIndirectOffset 0 0 256).wellFormed = false := by decide
theorem test_illFormed_storeIndirect :
    (AsmStmt.storeIndirect 256 0).wellFormed = false ∧ (AsmStmt.storeIndirect 0 256).wellFormed = false := by decide
theorem test_illFormed_byteSwap64 :
    (AsmStmt.byteSwap64 256 0).wellFormed = false ∧ (AsmStmt.byteSwap64 0 256).wellFormed = false := by decide
theorem test_illFormed_rawRecord : (AsmStmt.rawRecord 0 0 0 0 0 256).wellFormed = false := by decide
theorem test_illFormed_rawByte : (AsmStmt.rawByte 256).wellFormed = false := by decide
theorem test_partial_stream_is_advised_against : wholeRecords (setRecord ++ [0xFF#8]) = false := by decide

/-! ### Decoding: words written out from 30 R80, R81 and 95 V1 -/

theorem test_decode_set : decodeTableWord 48 0x620703000000 = some (.set 7#8 3#8 0#8 0#8 0#8) := by decide
theorem test_decode_loadIndirectOffset :
    decodeTableWord 48 0x131E0A02DEAD = some (.loadIndirectOffset 30#8 10#8 2#8 0xDE#8 0xAD#8) := by decide
theorem test_decode_storeIndirect :
    decodeTableWord 48 0x05281E000000 = some (.storeIndirect 40#8 30#8 0#8 0#8 0#8) := by decide
theorem test_decode_byteSwap64 :
    decodeTableWord 48 0x160503000000 = some (.byteSwap64 5#8 3#8 0#8 0#8 0#8) := by decide

/-- The decimal opcodes misread as hexadecimal are unknown (95 V1). -/
theorem test_decode_misread_opcodes :
    decodeTableWord 48 0x980703000000 = none ∧ decodeTableWord 48 0x190000000000 = none ∧
      decodeTableWord 48 0x220000000000 = none := by decide

theorem test_decode_short_record : decode [0x62#8, 7#8, 3#8, 0#8, 0#8] = .error (.notARecord 5) := by decide

/-- A bit-by-bit word: the fixed bits 01100010 of the table's encoding string, then five distinct operands. -/
theorem test_decode_set_bits :
    decodeTableWord 48 0b011000100000000100000010000000110000010000000101 = some (.set 1#8 2#8 3#8 4#8 5#8) := by
  decide
theorem test_decode_load_bits :
    decodeTableWord 48 0b000100110000000100000010000000110000010000000101 =
      some (.loadIndirectOffset 1#8 2#8 3#8 4#8 5#8) := by decide
theorem test_decode_store_bits :
    decodeTableWord 48 0b000001010000000100000010000000110000010000000101 =
      some (.storeIndirect 1#8 2#8 3#8 4#8 5#8) := by decide
theorem test_decode_swap_bits :
    decodeTableWord 48 0b000101100000000100000010000000110000010000000101 =
      some (.byteSwap64 1#8 2#8 3#8 4#8 5#8) := by decide

/-- No two rows of the table's match column agree under its mask, so no word is two instructions (30 R86). -/
theorem test_rows_disjoint :
    [0x620000000000#48, 0x130000000000#48, 0x050000000000#48, 0x160000000000#48].Pairwise
      (fun a b => a &&& 0xFF0000000000#48 ≠ b &&& 0xFF0000000000#48) := by decide

/-- The step after reset runs a table word as its first instruction (log 6). -/
theorem test_withFetchWord_runs :
    (nextOf (step (State.reset.withFetchWord 48 0x620703000000))).map (fun t => (t.m, t.pc)) =
      some ([(3, 7#64)], 1) := by decide

/-! ### Assembly (30 R91, R93) -/

theorem test_assemble_text :
    assembleText ["Set 7, 3            ; 62 07 03 00 00 00", "ByteSwap64 5, 0x3", "", ".byte FF"] =
      some [0x62#8, 7#8, 3#8, 0#8, 0#8, 0#8, 0x16#8, 5#8, 3#8, 0#8, 0#8, 0#8, 0xFF#8] := by decide
theorem test_text_above_255_is_refused : parseLine "Set 256, 3" = none := by decide
theorem test_disassemble_ignored_field :
    printLine (disassemble ⟨0x62#8, 7#8, 3#8, 0xAA#8, 0xBB#8, 0xCC#8⟩) = ".rec 62 07 03 AA BB CC" := by decide
theorem test_disassemble_load :
    printLine (disassemble ⟨0x13#8, 30#8, 10#8, 2#8, 0#8, 0#8⟩) = "LoadIndirectOffset 30, 10, 2" := by decide

/-! ### Instructions: at most two vectors each (95 V3 to V7) -/

theorem test_set_is_unsigned :
    (nextOf (exec (.set 255#8 0#8 0#8 0#8 0#8) State.reset)).map (fun t => (t.m, t.pc)) =
      some ([(0, 255#64)], 1) := by decide
theorem test_set_clears_the_whole_cell :
    (nextOf (exec (.set 0#8 5#8 0xAA#8 0xBB#8 0xCC#8) (small [(5, 0x0700000000000000#64)] []))).map State.m =
      some [] := by decide
theorem test_load_at_the_top :
    (nextOf (exec (.loadIndirectOffset 11#8 10#8 0#8 0#8 0#8) (small [(10, 255#64), (255, 42#64)] []))).map State.m =
      some [(10, 255#64), (11, 42#64), (255, 42#64)] := by decide
theorem test_load_does_not_wrap :
    (nextOf (exec (.loadIndirectOffset 2#8 1#8 255#8 0#8 0#8) (small [(1, 0xFFFFFFFFFFFFFFFF#64)] []))).map
      (fun t => (t.status, t.cause, t.pc, t.m)) =
      some (.fail, .outOfRangeAddress, 0, [(1, 0xFFFFFFFFFFFFFFFF#64)]) := by decide
theorem test_store_adds_no_offset :
    (nextOf (exec (.storeIndirect 40#8 30#8 7#8 0#8 0#8) (small [(30, 99#64), (40, 50#64)] []))).map State.m =
      some [(30, 99#64), (40, 50#64), (50, 99#64)] := by decide
theorem test_store_out_of_range :
    (nextOf (exec (.storeIndirect 1#8 0#8 0#8 0#8 0#8) (small [(0, 1#64), (1, 72057594037927936#64)] []))).map
      (fun t => (t.status, t.cause, t.pc)) = some (.fail, .outOfRangeAddress, 0) := by decide
theorem test_byteSwap_worked_value :
    (nextOf (exec (.byteSwap64 5#8 3#8 0#8 0#8 0#8) (small [(3, 7#64)] []))).map State.m =
      some [(3, 7#64), (5, 504403158265495552#64)] := by decide
theorem test_byteSwap_in_place :
    (nextOf (exec (.byteSwap64 9#8 9#8 0#8 0#8 0#8) (small [(9, 171#64)] []))).map State.m =
      some [(9, 12321848580485677056#64)] := by decide

theorem test_bswap64_multibyte : bswap64 0x0123456789ABCDEF#64 = 0xEFCDAB8967452301#64 := by decide
theorem test_bswap64_sentinel : bswap64Int (-5) = -1 ∧ bswap64Int (2 ^ 64 + 255) = -1 := by decide

/-! ### The host's side (95 S1, V9) -/

/-- The end state of the source's example: `m[3] = 7`, `m[5] = 504403158265495552` (95 S1). -/
def doneState : State := (small [(3, 7#64), (5, 504403158265495552#64)] []).halt

theorem test_snapshot_source_example :
    doneState.snapshot 0 8 =
      .ok [(0, 0), (1, 0), (2, 0), (3, 7), (4, 0), (5, 504403158265495552), (6, 0), (7, 0)] := by decide
theorem test_snapshot_refusals :
    doneState.snapshot 0 257 = .error .snapshotRange ∧ doneState.snapshot 8 0 = .error .snapshotRange ∧
      doneState.snapshot (-1) 4 = .error .snapshotRange ∧
      State.reset.snapshot 0 8 = .error .snapshotBeforeDone := by decide

/-- A run that fails on its first record (95 V8). -/
def failingStream : List Byte := [0x63#8, 0x00#8, 0x00#8, 0x00#8, 0x00#8, 0x00#8]

/-! ### The hypotheses of every statement are met -/

theorem test_meets_ResetLeavesTheSpecState :
    State.startRun setRecord = doneState.applyReset ∨ State.startRun setRecord = State.reset ∨
      ∃ prog, State.startRun setRecord = State.startRun prog := .inr (.inr ⟨setRecord, rfl⟩)
theorem test_meets_ResetMeetsTheInvariants :
    State.startRun setRecord = State.startRun setRecord ∨ State.startRun setRecord = State.reset := by decide
theorem test_meets_EncodeAndDecodeAreInverse : decode setRecord = .ok (.set 7#8 3#8 0#8 0#8 0#8) := by decide
theorem test_meets_DecodeIsTotalAndNamesRejections :
    (setRecord.take 5).length ≠ 6 ∧ (setRecord ++ [0#8]).length ≠ 6 ∧ KnownOpcode 5#8 ∧ ¬KnownOpcode 6#8 := by
  unfold KnownOpcode
  decide
theorem test_meets_DisassemblyAndAssemblyAreInverse :
    (AsmStmt.set 7 3).wellFormed = true ∧ assemble (.set 7 3) = (⟨0x62#8, 7#8, 3#8, 0#8, 0#8, 0#8⟩ : Record).bytes ∧
      ∀ b0 b1 b2 b3 b4 b5, AsmStmt.set 7 3 ≠ .rawRecord b0 b1 b2 b3 b4 b5 :=
  ⟨by decide, by decide, fun _ _ _ _ _ _ h => nomatch h⟩
theorem test_meets_StepRunsTheDecodedInstruction :
    (State.startRun setRecord).status = .run ∧
      decode (recordAt (State.startRun setRecord).prog 0) = .ok (.set 7#8 3#8 0#8 0#8 0#8) := by decide

/-- Boundaries of the halt: 5 bytes at `pc` 0, and 11 bytes at `pc` 1 (95 V2). -/
theorem test_meets_ShortRemainderHaltsTheRun :
    (State.startRun (setRecord.take 5)).status = .run ∧ (setRecord.take 5).length < 6 * 0 + 6 ∧
      6 * 0 ≤ (setRecord.take 5).length ∧ (setRecord ++ setRecord.take 5).length < 6 * 1 + 6 ∧
      6 * 1 ≤ (setRecord ++ setRecord.take 5).length := by decide
theorem test_meets_UnknownOpcodeFaults :
    (State.startRun failingStream).status = .run ∧
      recordAt (State.startRun failingStream).prog 0 = (⟨0x63#8, 0#8, 0#8, 0#8, 0#8, 0#8⟩ : Record).bytes ∧
      ¬KnownOpcode 0x63#8 := by
  unfold KnownOpcode
  decide
theorem test_meets_EndedRunsHaveNoStep :
    doneState.status = .done ∧ (State.reset.raise .unknownOpcode).status = .fail := by decide
/-- A record for each clause beyond the halt: unknown, out of range by load and by store, and each of the four
completing, at the boundary address 255 where there is one. -/
theorem test_meets_RunningStepHasThreeOutcomes :
    let top := small [(10, 255#64)] []
    State.reset.status = .run ∧ top.status = .run ∧
      State.reset.prog.length < 6 * State.reset.pc + 6 ∧
      recordAt setRecord 0 = (⟨98#8, 7#8, 3#8, 0#8, 0#8, 0#8⟩ : Record).bytes ∧ ¬KnownOpcode 0x63#8 ∧
      AddressOutOfRange top.m ⟨19#8, 12#8, 10#8, 1#8, 0#8, 0#8⟩ ∧
      ¬AddressOutOfRange top.m ⟨19#8, 12#8, 10#8, 0#8, 0#8, 0#8⟩ ∧
      AddressOutOfRange [(1, 256#64)] ⟨5#8, 1#8, 0#8, 0#8, 0#8, 0#8⟩ ∧
      ¬AddressOutOfRange top.m ⟨5#8, 10#8, 0#8, 0#8, 0#8, 0#8⟩ := by
  unfold KnownOpcode AddressOutOfRange
  decide

/-- The state after one step from a store on a stream. -/
def run (m : Memory) (bytes : List Byte) : Option State := nextOf (step (small m bytes))

/-- The step itself on a record of each instruction that retires: the cell written. -/
theorem test_step_retires_by_record :
    (run [] setRecord).map State.m = some [(3, 7#64)] ∧
      (run [(10, 255#64), (255, 9#64)] [0x13#8, 12#8, 10#8, 0#8, 0#8, 0#8]).map State.m =
        some [(10, 255#64), (12, 9#64), (255, 9#64)] ∧
      (run [(10, 255#64)] [0x05#8, 10#8, 10#8, 0#8, 0#8, 0#8]).map State.m = some [(10, 255#64), (255, 255#64)] ∧
      (run [(3, 7#64)] [0x16#8, 5#8, 3#8, 0#8, 0#8, 0#8]).map State.m =
        some [(3, 7#64), (5, 504403158265495552#64)] := by decide

/-- The step itself on a store through pointer 256: a fault, nothing written. -/
theorem test_step_faults_by_record :
    run [(1, 256#64)] [0x05#8, 1#8, 0#8, 0#8, 0#8, 0#8] =
      some ((small [(1, 256#64)] [0x05#8, 1#8, 0#8, 0#8, 0#8, 0#8]).raise .outOfRangeAddress) := by decide

/-- A step that stays in RUN, and one that leaves it. -/
theorem test_meets_PcMovesOnlyOnRetirement :
    ((nextOf (step (State.startRun setRecord))).map State.status = some .run) ∧
      ((nextOf (step State.reset)).map State.status = some .done) := by decide

/-- A step into FAIL by each of the two faults. -/
theorem test_meets_FaultEntryIsPreciseAndFinal :
    ((nextOf (step (State.startRun failingStream))).map (fun t => (t.status, t.cause)) =
        some (.fail, .unknownOpcode)) ∧
      ((nextOf (step (small [(10, 255#64)] [0x13#8, 0x0C#8, 0x0A#8, 0x01#8, 0x00#8, 0x00#8]))).map
          (fun t => (t.status, t.cause)) = some (.fail, .outOfRangeAddress)) := by decide

/-- Address 255 is the last in range, 256 the first outside (41 R135 (c)). -/
theorem test_meets_LoadIndirectOffsetLoadsOrFaults :
    (Memory.read (small [(10, 255#64)] []).m 10).toNat + (0#8 : Byte).toNat = 255 ∧
      (Memory.read (small [(10, 255#64)] []).m 10).toNat + (1#8 : Byte).toNat = 256 := by decide

/-- Pointer 255 is in range, 256 is not (41 R138 (e)). -/
theorem test_meets_StoreIndirectStoresOrFaults :
    (Memory.read (small [(1, 255#64)] []).m 1).toNat = 255 ∧ (Memory.read (small [(1, 256#64)] []).m 1).toNat = 256 := by
  decide
theorem test_meets_OnlyByteSwapMakesLargeValues :
    (∀ op1 op2 op3 op4 op5, Instr.set 1#8 2#8 0#8 0#8 0#8 ≠ .byteSwap64 op1 op2 op3 op4 op5) ∧
      (∀ a, (Memory.read State.reset.m a).toNat < 256) ∧
      ∃ t, exec (.set 1#8 2#8 0#8 0#8 0#8) State.reset = .next t :=
  ⟨fun _ _ _ _ _ h => (nomatch h), fun _ => Nat.zero_lt_succ 255, _, rfl⟩

/-- One state for each clause: a pointer in range, a zero pointer, an address in range, an address equal to op1. -/
theorem test_meets_LoadIndirectOffsetCornerCases :
    (Memory.read (small [(10, 20#64)] []).m 10).toNat < 256 ∧ Memory.read State.reset.m 0 = 0#64 ∧
      (Memory.read (small [(10, 20#64)] []).m 10).toNat + (2#8 : Byte).toNat < 256 ∧
      (Memory.read (small [(9, 10#64)] []).m 9).toNat + (0#8 : Byte).toNat = (10#8 : Byte).toNat := by decide
theorem test_meets_StoreIndirectCornerCases :
    MemoryInv (small [(5, 6#64), (6, 9#64)] []) ∧
      (Memory.read (small [(5, 6#64), (6, 9#64)] []).m 5).toNat = (6#8 : Byte).toNat ∧
      (Memory.read (small [(5, 7#64)] []).m 5).toNat < 256 := by decide
theorem test_meets_ByteSwapRoundTrips :
    MemoryInv (small [(9, 171#64)] []) ∧
      ∃ t u, exec (.byteSwap64 9#8 9#8 0#8 0#8 0#8) (small [(9, 171#64)] []) = .next t ∧
        exec (.byteSwap64 9#8 9#8 0#8 0#8 0#8) t = .next u := ⟨by decide, _, _, rfl, rfl⟩

/-- The boundaries of the range: -1 and 256 outside, 0 and 255 inside. -/
theorem test_meets_IndirectAccessChecksTheRange :
    ((-1 : Int) < 0) ∧ (0 ≤ (0 : Int) ∧ (0 : Int) ≤ 255) ∧ (0 ≤ (255 : Int) ∧ (255 : Int) ≤ 255) ∧
      255 < (256 : Int) := by decide
theorem test_meets_LoadAddressIsTheExactSum :
    ((255#64).extractLsb' 8 56 = 0#56 ∧ ((255#64).extractLsb' 0 8).toNat + (0#8 : Byte).toNat ≤ 255) ∧
      ¬((255#64).extractLsb' 8 56 = 0#56 ∧ ((255#64).extractLsb' 0 8).toNat + (1#8 : Byte).toNat ≤ 255) := by decide
theorem test_meets_ByteSwapSentinelOutsideTheRange :
    (0 ≤ (2 ^ 64 - 1 : Int) ∧ (2 ^ 64 - 1 : Int) ≤ 2 ^ 64 - 1) ∧ ((-1 : Int) < 0) ∧
      (2 ^ 64 - 1 : Int) < 2 ^ 64 := by decide

/-- A state that meets all four invariants and a step from it, for the statements that steps keep them. -/
theorem test_meets_StepKeepsTheInvariants :
    MemoryInv (State.startRun setRecord) ∧ CellValueInv (State.startRun setRecord) ∧
      CauseInv (State.startRun setRecord) ∧ PcInv (State.startRun setRecord) ∧
      FaultRecordInv (State.startRun setRecord) ∧ ∃ t, step (State.startRun setRecord) = .next t :=
  ⟨by decide, fun _ => ⟨0#8, .inl rfl⟩, by decide, by decide,
    ⟨by decide, ⟨nofun, fun h => (nomatch h.1)⟩, ⟨nofun, fun h => (nomatch h.1)⟩⟩, _, rfl⟩

/-- Steps from a state with the fault invariant into FAIL by each of the two faults. -/
theorem test_meets_StepKeepsFaultRecord (prog : List Byte) :
    FaultRecordInv (small [(10, 255#64)] prog) ∧
      (nextOf (step (small [] failingStream))).map State.cause = some .unknownOpcode ∧
      (nextOf (step (small [(10, 255#64)] [0x13#8, 12#8, 10#8, 1#8, 0#8, 0#8]))).map State.cause =
        some .outOfRangeAddress :=
  ⟨⟨by simp [small], ⟨nofun, fun h => (nomatch h.1)⟩, ⟨nofun, fun h => (nomatch h.1)⟩⟩, by decide, by decide⟩

/-- A reachable state beyond the start, for the statements about every reachable state. -/
theorem test_meets_Reachable :
    ∃ t, Reachable setRecord t ∧ t.pc = 1 :=
  ⟨((State.startRun setRecord).withM [(3, 7#64)]).retire, .step .start rfl, rfl⟩

/-- `Set 1, 0`, `ByteSwap64 0, 0`, `StoreIndirect 0, 0`: the pointer is 2^56 (95 P3, in place). -/
def outOfRangeStream : List Byte :=
  [0x62#8, 1#8, 0#8, 0#8, 0#8, 0#8] ++ [0x16#8, 0#8, 0#8, 0#8, 0#8, 0#8] ++ [0x05#8, 0#8, 0#8, 0#8, 0#8, 0#8]

/-- The states of its run after one and two steps. -/
def afterSet : State := ((State.startRun outOfRangeStream).withM [(0, 1#64)]).retire
def afterSwap : State := (afterSet.withM [(0, 72057594037927936#64)]).retire

/-- Reachable states in every status, and in FAIL with each cause, for the statement on their codes. -/
theorem test_meets_CauseCodeNamesTheFault :
    Reachable failingStream (State.startRun failingStream) ∧
      (∃ t, Reachable [] t ∧ t.status = .done) ∧
      (∃ t, Reachable failingStream t ∧ t.status = .fail ∧ t.cause = .unknownOpcode) ∧
      ∃ t, Reachable outOfRangeStream t ∧ t.status = .fail ∧ t.cause = .outOfRangeAddress := by
  have h1 : step (State.startRun outOfRangeStream) = .next afterSet := eq_next_of_nextOf (by decide)
  have h2 : step afterSet = .next afterSwap := eq_next_of_nextOf (by decide)
  have h3 : step afterSwap = .next (afterSwap.raise .outOfRangeAddress) := eq_next_of_nextOf (by decide)
  exact ⟨.start, ⟨(State.startRun []).halt, .step .start rfl, rfl⟩,
    ⟨(State.startRun failingStream).raise .unknownOpcode, .step .start rfl, rfl, rfl⟩,
    ⟨afterSwap.raise .outOfRangeAddress, .step (.step (.step .start h1) h2) h3, rfl, rfl⟩⟩

/-- A run of the failing stream reaches FAIL after one step; the empty stream reaches DONE after one step; a run is
still RUN after none. -/
theorem test_meets_PcCountsRetiredInstructions :
    ((State.startRun failingStream).afterSteps 1).map State.status = some .fail ∧
      ((State.startRun []).afterSteps 1).map State.status = some .done ∧
      ((State.startRun setRecord).afterSteps 1).map State.status = some .run := by decide
theorem test_meets_RunProgramIsTheUniqueEnd :
    (runProgram []).status = .done ∧ (runProgram failingStream).status = .fail ∧
      Reachable [] (runProgram []) ∧ (runProgram []).Ended :=
  ⟨by decide, by decide, .step .start rfl, by decide⟩

theorem test_meets_IgnoredBytesDoNotMatter :
    SameRecords setRecord [0x62#8, 0x07#8, 0x03#8, 0xAA#8, 0xBB#8, 0xCC#8, 0xFF#8] := by
  refine ⟨by decide, fun k r r' hr hr' => ?_⟩
  obtain ⟨b0, b1, b2, b3, b4, b5⟩ := r
  obtain ⟨c0, c1, c2, c3, c4, c5⟩ := r'
  cases k with
  | zero =>
    simp only [recordAt, setRecord, Record.bytes, Nat.mul_zero, List.drop_zero, List.take_succ_cons, List.take_zero,
      List.cons.injEq] at hr hr'
    obtain ⟨rfl, rfl, rfl, -⟩ := hr
    obtain ⟨rfl, rfl, rfl, -⟩ := hr'
    exact ⟨rfl, fun _ => ⟨rfl, rfl⟩, fun h => absurd (show (98#8 : Byte) = 19#8 from h) (by decide)⟩
  | succ k =>
    have := congrArg List.length hr
    simp [recordAt, setRecord, Record.bytes] at this

theorem test_meets_RecordsBeforeAFaultRetire : (runProgram failingStream).status = .fail := by decide
theorem test_meets_StreamAndCellsAreDisjoint :
    ∃ t, exec (.set 7#8 3#8 0#8 0#8 0#8) (State.startRun setRecord) = .next t := ⟨_, rfl⟩
theorem test_meets_StepHasNoLookahead :
    (setRecord ++ failingStream).take (6 * (State.startRun setRecord).pc + 6) =
        (State.startRun setRecord).prog.take (6 * (State.startRun setRecord).pc + 6) ∧
      ∃ t, step (State.startRun setRecord) = .next t := ⟨by decide, _, rfl⟩

/-- The widest range and an empty one at the top. -/
theorem test_meets_SnapshotGivesTheRange :
    doneState.status = .done ∧ (0 : Int) ≤ 0 ∧ (0 : Int) ≤ 256 ∧ (256 : Int) ≤ 256 := by decide
theorem test_meets_SnapshotIsRepeatable :
    doneState.snapshot 3 4 = .ok [(3, 7)] ∧ doneState.snapshot 2 5 = .ok [(2, 0), (3, 7), (4, 0)] ∧
      doneState.host (.snapshot 5 5) = .ok (.rows [], doneState) := by decide
theorem test_meets_CellsAreHiddenBeforeDone : State.reset.status ≠ .done := by decide
theorem test_meets_HostOnlyReadsOrRestarts :
    doneState.host .readStatus = .ok (.statusCode 1#2, doneState) ∧
      (State.startRun setRecord).host .reset = .ok (.taken, State.startRun setRecord) ∧
      doneState.host (.start setRecord) = .ok (.taken, State.startRun setRecord) := by decide

/-- A state in each status and with each cause. -/
theorem test_meets_HostReadsTheRegisters :
    State.reset.status = .run ∧ State.reset.cause = .none ∧ doneState.status = .done ∧
      (State.reset.raise .unknownOpcode).status = .fail ∧
      (State.reset.raise .unknownOpcode).cause = .unknownOpcode ∧
      (State.reset.raise .outOfRangeAddress).cause = .outOfRangeAddress := by decide

end Sys2Proof.Tests
end

/-!
SUPPORT. What one step does, forwards: from a condition on the state to its one next state. The inversion
`step_outcomes` says the same facts backwards.
-/

namespace Sys2Proof.Machine

/-! ### The step, by what stands at `pc` -/

/-- An ended run stops under the name of its status (00 R10; log 3). -/
theorem step_of_done {s : State} (h : s.status = .done) : step s = .fault .noStepAfterDone := by
  simp only [step, h]

theorem step_of_fail {s : State} (h : s.status = .fail) : step s = .fault .noStepAfterFail := by
  simp only [step, h]

/-- The end-of-stream test comes before any record is looked at (40 R111). -/
theorem step_of_short {s : State} (hrun : s.status = .run) (hshort : s.prog.length < 6 * s.pc + 6) :
    step s = .next s.halt := by
  simp only [step_run hrun, s.fetch_eq_none.2 hshort]

/-- The record at `pc` is the one the step runs (40 R112, R113). -/
theorem step_of_recordAt {s : State} {r : Record} (hrun : s.status = .run)
    (hrec : recordAt s.prog s.pc = r.bytes) : step s = s.runRecord r := by
  simp only [step_run hrun, (s.fetch_eq_some r).2 hrec]

/-- Every state has a short remainder or a complete record at `pc` (40 R110). -/
theorem short_or_recordAt (s : State) :
    s.prog.length < 6 * s.pc + 6 ∨ ∃ r : Record, recordAt s.prog s.pc = r.bytes := by
  cases hf : s.fetch with
  | none => exact .inl (s.fetch_eq_none.1 hf)
  | some r => exact .inr ⟨r, (s.fetch_eq_some r).1 hf⟩

/-! ### Running a record, by its opcode (30 R86, 40 R114) -/

theorem State.runRecord_of_toInstr {s : State} {r : Record} {i : Instr} (h : r.toInstr = some i) :
    s.runRecord r = exec i s := by
  simp only [State.runRecord, h]

theorem State.runRecord_of_unknown {s : State} {r : Record} (h : ¬KnownOpcode r.opcode) :
    s.runRecord r = .next (s.raise .unknownOpcode) := by
  simp only [State.runRecord, (toInstr_eq_none_iff r).2 h]

theorem State.runRecord_of_set {s : State} {r : Record} (h : r.opcode = 98#8) :
    s.runRecord r = execSet r.op1 r.op2 r.op3 r.op4 r.op5 s :=
  State.runRecord_of_toInstr (i := .set r.op1 r.op2 r.op3 r.op4 r.op5) (by simp [Record.toInstr, h])

theorem State.runRecord_of_load {s : State} {r : Record} (h : r.opcode = 19#8) :
    s.runRecord r = execLoadIndirectOffset r.op1 r.op2 r.op3 r.op4 r.op5 s :=
  State.runRecord_of_toInstr (i := .loadIndirectOffset r.op1 r.op2 r.op3 r.op4 r.op5) (by simp [Record.toInstr, h])

theorem State.runRecord_of_store {s : State} {r : Record} (h : r.opcode = 5#8) :
    s.runRecord r = execStoreIndirect r.op1 r.op2 r.op3 r.op4 r.op5 s :=
  State.runRecord_of_toInstr (i := .storeIndirect r.op1 r.op2 r.op3 r.op4 r.op5) (by simp [Record.toInstr, h])

theorem State.runRecord_of_swap {s : State} {r : Record} (h : r.opcode = 22#8) :
    s.runRecord r = execByteSwap64 r.op1 r.op2 r.op3 r.op4 r.op5 s :=
  State.runRecord_of_toInstr (i := .byteSwap64 r.op1 r.op2 r.op3 r.op4 r.op5) (by simp [Record.toInstr, h])

/-- A load or store out of range raises, whichever of the two it is (60 R172). -/
theorem State.runRecord_of_outOfRange {s : State} {r : Record} (h : AddressOutOfRange s.m r) :
    s.runRecord r = .next (s.raise .outOfRangeAddress) := by
  rcases h with ⟨hop, haddr⟩ | ⟨hop, haddr⟩
  · rw [State.runRecord_of_load hop, execLoadIndirectOffset_of_outOfRange _ _ _ _ _ s haddr]
  · rw [State.runRecord_of_store hop, execStoreIndirect_of_outOfRange _ _ _ _ _ s haddr]

theorem loadAddress_lt_of_inRange {m : Memory} {r : Record} (hop : r.opcode = 19#8) (h : ¬AddressOutOfRange m r) :
    (Memory.read m r.op2.toNat).toNat + r.op3.toNat < 256 :=
  Nat.lt_of_not_le fun hge => h (.inl ⟨hop, hge⟩)

theorem storeAddress_lt_of_inRange {m : Memory} {r : Record} (hop : r.opcode = 5#8) (h : ¬AddressOutOfRange m r) :
    (Memory.read m r.op1.toNat).toNat < 256 :=
  Nat.lt_of_not_le fun hge => h (.inr ⟨hop, hge⟩)

/-! ### The ends of a step in the terms of the statements -/

/-- Writing a cell changes that cell's reading and no other (20 R58). -/
theorem writesOnly_withM_write (s : State) (a : Nat) (v : Word) :
    WritesOnly s (s.withM (Memory.write s.m a v)) a v :=
  ⟨by simp, fun b hb => by simp [hb]⟩

theorem retires_withM_retire (s : State) (m : Memory) : Retires s (s.withM m).retire := ⟨rfl, rfl, rfl, rfl⟩

theorem entersFault_raise (s : State) (f : Raised) : EntersFault s (s.raise f) f.cause := ⟨rfl, rfl, rfl, rfl, rfl⟩

/-- An outcome that writes one cell and retires, as the statements describe it (40 R116). -/
theorem exists_retires_writesOnly {o : Host.Outcome State Fault Refusal} {s : State} {a : Nat} {v : Word}
    (h : o = .next (s.withM (Memory.write s.m a v)).retire) :
    ∃ t, o = .next t ∧ Retires s t ∧ WritesOnly s t a v :=
  ⟨_, h, retires_withM_retire s _, writesOnly_withM_write s a v⟩

/-- An outcome that enters a fault, as the statements describe it (60 R176). -/
theorem exists_entersFault {o : Host.Outcome State Fault Refusal} {s : State} {f : Raised}
    (h : o = .next (s.raise f)) : ∃ t, o = .next t ∧ EntersFault s t f.cause :=
  ⟨_, h, entersFault_raise s f⟩

/-- The immediate of Set is its field's value as a 64-bit number (41 R140). -/
theorem immediate_eq_ofNat (field : Byte) : immediate field = BitVec.ofNat 64 field.toNat :=
  (BitVec.ofNat_toNat 64 field).symm

/-! ### The statements -/

/-- Settles O12: the bytes at `pc` halt the run or select what the step runs, and each opcode, with its address test
where it has one, fixes the outcome. -/
theorem runningStepHasThreeOutcomes : Obligations.RunningStepHasThreeOutcomes := by
  intro s hrun
  refine ⟨short_or_recordAt s, fun hshort => ⟨s.halt, step_of_short hrun hshort, rfl, rfl, rfl, rfl, rfl⟩, ?_⟩
  intro r hrec
  rw [step_of_recordAt hrun hrec]
  refine ⟨fun hunknown => ?_, fun hout => ?_, fun hop => ?_, fun hop hin => ?_, fun hop hin => ?_, fun hop => ?_⟩
  · exact exists_entersFault (State.runRecord_of_unknown hunknown)
  · exact exists_entersFault (State.runRecord_of_outOfRange hout)
  · rw [State.runRecord_of_set hop, ← immediate_eq_ofNat]
    exact exists_retires_writesOnly rfl
  · rw [State.runRecord_of_load hop]
    exact exists_retires_writesOnly
      (execLoadIndirectOffset_of_inRange _ _ _ _ _ s (loadAddress_lt_of_inRange hop hin))
  · rw [State.runRecord_of_store hop]
    exact exists_retires_writesOnly
      (execStoreIndirect_of_inRange _ _ _ _ _ s (storeAddress_lt_of_inRange hop hin))
  · rw [State.runRecord_of_swap hop]
    exact exists_retires_writesOnly rfl

/-- Settles O11: the step looks at `status` first. -/
theorem endedRunsHaveNoStep : Obligations.EndedRunsHaveNoStep :=
  fun _ => ⟨step_of_done, step_of_fail⟩

/-- Settles O23: both accesses answer exactly inside the store, where the write is one cell's. -/
theorem indirectAccessChecksTheRange : Obligations.IndirectAccessChecksTheRange := by
  intro s addr v
  refine ⟨fun hin => ?_, fun hout => ?_⟩
  · have hrange : 0 ≤ addr ∧ addr < 256 := by omega
    exact ⟨(s.memRead_eq_some addr _).2 ⟨hrange, rfl⟩, _, (s.memWrite_eq_some addr v _).2 ⟨hrange, rfl⟩,
      writesOnly_withM_write s addr.toNat v, rfl, rfl, rfl, rfl⟩
  · have hrange : ¬(0 ≤ addr ∧ addr < 256) := by omega
    exact ⟨(s.memRead_eq_none addr).2 hrange, (s.memWrite_eq_none addr v).2 hrange⟩

end Sys2Proof.Machine

/-!
SUPPORT. What a step keeps: the facts about the store, the stream, `pc` and `cause` that the invariants turn on, each
read off `step_outcomes`.
-/

namespace Sys2Proof.Machine

/-! ### The store under a step -/

/-- A predicate of the store that survives every write an instruction can make survives every step: halting and fault
entry leave the store alone (40 R116, 60 R176). -/
theorem step_keeps_store {P : Memory → Prop}
    (hwrite : ∀ m a v, P m → a < Config.cellCount → WrittenValue m v → P (Memory.write m a v))
    {s t : State} (hs : P s.m) (h : step s = .next t) : P t.m := by
  obtain ⟨-, ⟨r, i, a, v, -, -, ha, hv, rfl⟩ | ⟨-, rfl⟩ | ⟨r, -, -, rfl⟩ | ⟨r, -, -, rfl⟩⟩ := step_outcomes h
  · exact hwrite s.m a v hs ha hv
  · exact hs
  · exact hs
  · exact hs

/-! ### The byte swap of the values a run can produce (42 R152) -/

/-- Mirroring the bytes twice gives every bit back. -/
@[simp] theorem bswap64_bswap64 (v : Word) : bswap64 (bswap64 v) = v := by
  refine BitVec.eq_of_getLsbD_eq fun j hj => ?_
  have hmirror : 8 * (7 - j / 8) + j % 8 < 64 := by omega
  rw [bswap64_getLsbD _ _ hj, bswap64_getLsbD _ _ hmirror]
  congr 1
  omega

/-- A byte swapped is that byte above 56 zero bits. -/
theorem bswap64_zext64 (b : Byte) : bswap64 (zext64 b) = b ++ 0#56 := by
  refine BitVec.eq_of_getLsbD_eq fun j hj => ?_
  rw [bswap64_getLsbD _ _ hj, BitVec.getLsbD_append]
  by_cases htop : j < 56
  · have hzero : 8 ≤ 8 * (7 - j / 8) + j % 8 := by omega
    simp [zext64, BitVec.getLsbD_setWidth, htop, BitVec.getLsbD_of_ge b _ hzero]
  · have hbyte : 8 * (7 - j / 8) + j % 8 = j - 56 := by omega
    have hin : j - 56 < 64 := by omega
    simp [zext64, htop, hbyte, hin]

theorem bswap64_zext64_toNat (b : Byte) : (bswap64 (zext64 b)).toNat = b.toNat * 2 ^ 56 := by
  rw [bswap64_zext64, BitVec.toNat_append, Nat.shiftLeft_eq]
  simp

/-- The values of R34 are the bytes and their byte swaps. -/
theorem byteOrTopByte_iff (v : Word) : ByteOrTopByte v ↔ ∃ b, v = zext64 b ∨ v = bswap64 (zext64 b) := by
  unfold ByteOrTopByte
  simp only [← BitVec.toNat_inj, zext64_toNat, bswap64_zext64_toNat]

/-- The set of R34 is closed under the byte swap, which exchanges its two halves. -/
theorem ByteOrTopByte.bswap64 {v : Word} (h : ByteOrTopByte v) : ByteOrTopByte (bswap64 v) := by
  obtain ⟨b, rfl | rfl⟩ := (byteOrTopByte_iff v).1 h
  · exact (byteOrTopByte_iff _).2 ⟨b, .inr rfl⟩
  · exact (byteOrTopByte_iff _).2 ⟨b, .inl (bswap64_bswap64 _)⟩

/-- No instruction makes another value out of cells that hold values of R34. -/
theorem WrittenValue.byteOrTopByte {m : Memory} {v : Word} (hm : ∀ a, ByteOrTopByte (Memory.read m a))
    (h : WrittenValue m v) : ByteOrTopByte v := by
  obtain ⟨b, rfl⟩ | ⟨a, rfl⟩ | ⟨a, rfl⟩ := h
  · exact (byteOrTopByte_iff _).2 ⟨b, .inl rfl⟩
  · exact hm a
  · exact (hm a).bswap64

/-! ### The record at `pc` -/

/-- A record is fetched only where it is complete (40 R111). -/
theorem State.le_length_of_fetch {s : State} {r : Record} (h : s.fetch = some r) : 6 * s.pc + 6 ≤ s.prog.length := by
  refine Nat.le_of_not_lt fun hshort => ?_
  rw [s.fetch_eq_none.2 hshort] at h
  exact nomatch h

theorem Record.bytes_inj {r r' : Record} : r.bytes = r'.bytes ↔ r = r' := by
  refine ⟨fun h => ?_, fun h => h ▸ rfl⟩
  rw [← Option.some.injEq, ← Record.ofBytes_bytes r, h, Record.ofBytes_bytes]

/-- Where a record stands, a property of "the record there" is a property of that record. -/
theorem exists_record_iff {bytes : List Byte} {r : Record} (h : bytes = r.bytes) (P : Record → Prop) :
    (∃ r' : Record, bytes = r'.bytes ∧ P r') ↔ P r := by
  simp [h, Record.bytes_inj]

/-- Only loads and stores have an address to be out of range (60 R172). -/
theorem AddressOutOfRange.knownOpcode {m : Memory} {r : Record} (h : AddressOutOfRange m r) :
    KnownOpcode r.opcode := by
  rcases h with ⟨hop, -⟩ | ⟨hop, -⟩
  · exact .inr (.inl hop)
  · exact .inr (.inr (.inl hop))

/-! ### The fault record (60 R170) -/

/-- Where no fault is recorded there is nothing for `cause` to name. -/
theorem faultRecordInv_of_none {s : State} (hc : s.cause = .none) (hs : s.status ≠ .fail) : FaultRecordInv s := by
  simp [FaultRecordInv, hc, hs]

/-- Fault entry on an unknown record names that fault and no other (60 R171). -/
theorem faultRecordInv_raise_unknownOpcode {s : State} {r : Record} (hrec : recordAt s.prog s.pc = r.bytes)
    (h : ¬KnownOpcode r.opcode) : FaultRecordInv (s.raise .unknownOpcode) := by
  have hin : ¬AddressOutOfRange s.m r := fun hout => h hout.knownOpcode
  simp [FaultRecordInv, Raised.cause, exists_record_iff hrec, h, hin]

/-- Fault entry on an address out of range names that fault and no other (60 R172). -/
theorem faultRecordInv_raise_outOfRangeAddress {s : State} {r : Record} (hrec : recordAt s.prog s.pc = r.bytes)
    (h : AddressOutOfRange s.m r) : FaultRecordInv (s.raise .outOfRangeAddress) := by
  simp [FaultRecordInv, Raised.cause, exists_record_iff hrec, h, h.knownOpcode]

/-! ### Statements about one step -/

/-- Settles O28: the one write a step can make is to a cell below 256, and such a write keeps the form. -/
theorem stepKeepsMemoryCanonical : Obligations.StepKeepsMemoryCanonical :=
  fun _ _ => step_keeps_store (P := fun m => Memory.wf m = true) fun _ _ v hm ha _ => Memory.wf_write v hm ha

/-- Settles O29: what a step writes is an immediate, a cell's value or its byte swap, and R34's set is closed under
all three. -/
theorem stepKeepsCellValues : Obligations.StepKeepsCellValues := by
  refine fun s t => step_keeps_store (P := fun m => ∀ a, ByteOrTopByte (Memory.read m a)) ?_
  intro m a v hm _ hv b
  rw [Memory.read_write]
  split
  · exact hv.byteOrTopByte hm
  · exact hm b

/-- Settles O31: `pc` moves past a complete record only, the run halts only where none stands, and enters a fault only
where one does. -/
theorem stepKeepsPcInStream : Obligations.StepKeepsPcInStream := by
  rintro s t ⟨hpc, -, -⟩ h
  obtain ⟨hrun, ⟨r, i, a, v, hf, -, -, -, rfl⟩ | ⟨hf, rfl⟩ | ⟨r, hf, -, rfl⟩ | ⟨r, hf, -, rfl⟩⟩ := step_outcomes h
  · have hlen := State.le_length_of_fetch hf
    refine ⟨?_, by simp [hrun], by simp [hrun]⟩
    simp only [State.retire_pc, State.retire_prog, State.withM_pc, State.withM_prog, Config.recordBytes]
    omega
  · exact ⟨hpc, fun _ => s.fetch_eq_none.1 hf, nofun⟩
  · exact ⟨hpc, nofun, fun _ => State.le_length_of_fetch hf⟩
  · exact ⟨hpc, nofun, fun _ => State.le_length_of_fetch hf⟩

/-- Settles O46: a step that is no fault entry leaves `cause` at the NONE it has in RUN, and fault entry records the
fault of the record it fetched, in the cells it leaves unchanged. -/
theorem stepKeepsFaultRecord : Obligations.StepKeepsFaultRecord := by
  rintro s t ⟨hnone, -, -⟩ h
  obtain ⟨hrun, hcase⟩ := step_outcomes h
  have hcause : s.cause = .none := hnone.2 (by simp [hrun])
  obtain ⟨r, i, a, v, -, -, -, -, rfl⟩ | ⟨-, rfl⟩ | ⟨r, hf, hunknown, rfl⟩ | ⟨r, hf, hout, rfl⟩ := hcase
  · exact faultRecordInv_of_none hcause (by simp [hrun])
  · exact faultRecordInv_of_none hcause (by simp)
  · exact faultRecordInv_raise_unknownOpcode ((s.fetch_eq_some r).1 hf) hunknown
  · exact faultRecordInv_raise_outOfRangeAddress ((s.fetch_eq_some r).1 hf) hout

/-- Settles O13: of the four outcomes only retirement stays in RUN, and only it touches `pc` or a cell. -/
theorem pcMovesOnlyOnRetirement : Obligations.PcMovesOnlyOnRetirement := by
  intro s t h
  obtain ⟨hrun, ⟨r, i, a, v, -, -, -, -, rfl⟩ | ⟨-, rfl⟩ | ⟨r, -, -, rfl⟩ | ⟨r, -, -, rfl⟩⟩ := step_outcomes h
  · exact ⟨hrun, fun _ => rfl, fun hended => absurd hrun hended⟩
  · exact ⟨hrun, nofun, fun _ => ⟨rfl, rfl⟩⟩
  · exact ⟨hrun, nofun, fun _ => ⟨rfl, rfl⟩⟩
  · exact ⟨hrun, nofun, fun _ => ⟨rfl, rfl⟩⟩

/-- Settles O30: retirement and the halt keep the NONE of RUN, and each fault records a cause other than NONE. -/
theorem stepKeepsCauseWithStatus : Obligations.StepKeepsCauseWithStatus := by
  intro s t hinv h
  obtain ⟨hrun, hcase⟩ := step_outcomes h
  have hcause : s.cause = .none := hinv.2 (by simp [hrun])
  obtain ⟨r, i, a, v, -, -, -, -, rfl⟩ | ⟨-, rfl⟩ | ⟨r, -, -, rfl⟩ | ⟨r, -, -, rfl⟩ := hcase
  · simp [CauseInv, hrun, hcause]
  · simp [CauseInv, hcause]
  · simp [CauseInv, Raised.cause_ne_none]
  · simp [CauseInv, Raised.cause_ne_none]

/-! ### A step under another stream -/

/-- Fetch looks at no byte beyond the record at `pc` (40 R112). -/
theorem State.fetch_withProg {s : State} {p : List Byte} (h : p.take (6 * s.pc + 6) = s.prog.take (6 * s.pc + 6)) :
    (s.withProg p).fetch = s.fetch := by
  refine Option.ext fun r => ?_
  rw [State.fetch_eq_some, State.fetch_eq_some, State.withProg_prog, State.withProg_pc, List.take_drop,
    List.take_drop, h]

/-- Replacing the stream does not change what an instruction does: it sees the cells only (20 R66). -/
theorem exec_withProg {i : Instr} {s t : State} (p : List Byte) (h : exec i s = .next t) :
    exec i (s.withProg p) = .next (t.withProg p) := by
  cases i with
  | set op1 op2 op3 op4 op5 =>
    cases h
    rfl
  | byteSwap64 op1 op2 op3 op4 op5 =>
    cases h
    rfl
  | loadIndirectOffset op1 op2 op3 op4 op5 =>
    by_cases hin : (Memory.read s.m op2.toNat).toNat + op3.toNat < 256
    · cases (execLoadIndirectOffset_of_inRange op1 op2 op3 op4 op5 s hin).symm.trans h
      exact execLoadIndirectOffset_of_inRange op1 op2 op3 op4 op5 (s.withProg p) hin
    · cases (execLoadIndirectOffset_of_outOfRange op1 op2 op3 op4 op5 s (Nat.le_of_not_lt hin)).symm.trans h
      exact execLoadIndirectOffset_of_outOfRange op1 op2 op3 op4 op5 (s.withProg p) (Nat.le_of_not_lt hin)
  | storeIndirect op1 op2 op3 op4 op5 =>
    by_cases hin : (Memory.read s.m op1.toNat).toNat < 256
    · cases (execStoreIndirect_of_inRange op1 op2 op3 op4 op5 s hin).symm.trans h
      exact execStoreIndirect_of_inRange op1 op2 op3 op4 op5 (s.withProg p) hin
    · cases (execStoreIndirect_of_outOfRange op1 op2 op3 op4 op5 s (Nat.le_of_not_lt hin)).symm.trans h
      exact execStoreIndirect_of_outOfRange op1 op2 op3 op4 op5 (s.withProg p) (Nat.le_of_not_lt hin)

/-- Settles O40: the two streams give the same fetch, and what is done with its result does not look at the
stream. -/
theorem stepHasNoLookahead : Obligations.StepHasNoLookahead := by
  intro s t p htake h
  have hfetch := State.fetch_withProg htake
  obtain ⟨hrun, ⟨hf, rfl⟩ | ⟨r, hf, hr, rfl⟩ | ⟨r, i, hf, hr, he⟩⟩ := step_cases h
  · rw [step_run (s := s.withProg p) hrun, hfetch, hf]
    rfl
  · rw [step_run (s := s.withProg p) hrun, hfetch, hf]
    exact State.runRecord_of_unknown ((toInstr_eq_none_iff r).1 hr)
  · rw [step_run (s := s.withProg p) hrun, hfetch, hf]
    exact (State.runRecord_of_toInstr hr).trans (exec_withProg p he)

end Sys2Proof.Machine

/-!
SUPPORT. Runs: their start, and what holds of every state they reach.
-/

namespace Sys2Proof.Machine

/-! ### The start of a run (10 R33, 70 R201) -/

@[simp] theorem State.startRun_m (prog : List Byte) : (State.startRun prog).m = [] := rfl
@[simp] theorem State.startRun_pc (prog : List Byte) : (State.startRun prog).pc = 0 := rfl
@[simp] theorem State.startRun_status (prog : List Byte) : (State.startRun prog).status = .run := rfl
@[simp] theorem State.startRun_cause (prog : List Byte) : (State.startRun prog).cause = .none := rfl
@[simp] theorem State.startRun_prog (prog : List Byte) : (State.startRun prog).prog = prog := rfl

/-- Both resets are starts: of the stream in place, and of the empty one (log 2). -/
theorem State.applyReset_eq_startRun (s : State) : s.applyReset = State.startRun s.prog := rfl
theorem State.reset_eq_startRun : State.reset = State.startRun [] := rfl

/-- A cell of a fresh store holds the byte 0. -/
theorem cellValueInv_startRun (prog : List Byte) : CellValueInv (State.startRun prog) :=
  fun _ => ⟨0#8, .inl rfl⟩

theorem faultRecordInv_startRun (prog : List Byte) : FaultRecordInv (State.startRun prog) :=
  faultRecordInv_of_none rfl nofun

/-- Settles O1: each of the three states is the start of a run. -/
theorem resetLeavesTheSpecState : Obligations.ResetLeavesTheSpecState := by
  intro s t ht
  obtain ⟨prog, rfl⟩ : ∃ prog, t = State.startRun prog := by
    obtain rfl | rfl | hstart := ht
    · exact ⟨s.prog, s.applyReset_eq_startRun⟩
    · exact ⟨[], State.reset_eq_startRun⟩
    · exact hstart
  exact ⟨fun _ _ => rfl, rfl, rfl, rfl⟩

/-- Settles O2: an empty store, `pc` 0 and RUN with cause NONE meet each invariant. -/
theorem resetMeetsTheInvariants : Obligations.ResetMeetsTheInvariants := by
  intro prog s hs
  obtain ⟨p, rfl⟩ : ∃ p, s = State.startRun p := by
    obtain rfl | rfl := hs
    · exact ⟨prog, rfl⟩
    · exact ⟨[], State.reset_eq_startRun⟩
  exact ⟨rfl, cellValueInv_startRun p, by simp [CauseInv], ⟨Nat.zero_le _, nofun, nofun⟩, faultRecordInv_startRun p⟩

/-! ### Reachable states -/

/-- What holds at the start and is kept by every step holds of every reachable state. -/
theorem Reachable.invariant {P : State → Prop} {prog : List Byte} {s : State} (hs : Reachable prog s)
    (hstart : P (State.startRun prog)) (hstep : ∀ s t, P s → Machine.step s = .next t → P t) : P s := by
  induction hs with
  | start => exact hstart
  | step _ h ih => exact hstep _ _ ih h

theorem Reachable.cellValueInv {prog : List Byte} {s : State} (h : Reachable prog s) : CellValueInv s :=
  h.invariant (cellValueInv_startRun prog) stepKeepsCellValues

theorem Reachable.faultRecordInv {prog : List Byte} {s : State} (h : Reachable prog s) : FaultRecordInv s :=
  h.invariant (faultRecordInv_startRun prog) stepKeepsFaultRecord

theorem Reachable.prog_eq {prog : List Byte} {s : State} (h : Reachable prog s) : s.prog = prog :=
  h.invariant (P := fun s => s.prog = prog) rfl fun _ _ hs ht => (step_prog ht).trans hs

/-! ### Addresses and the sentinel on what a cell holds -/

/-- The sentinel is no byte swap of a cell's value, which is never outside the operand range (42 R153). -/
theorem bswap64Int_toNat_ne_sentinel (v : Word) : bswap64Int (v.toNat : Int) ≠ -1 := by
  have hv := v.isLt
  unfold bswap64Int
  rw [if_pos (by omega)]
  omega

/-- A natural address leaves the store at its upper end only. -/
theorem inStore_eq_false_iff {addr : Int} (h : 0 ≤ addr) : inStore addr = false ↔ 256 ≤ addr := by
  rw [← Bool.not_eq_true, inStore_iff]
  omega

/-- Settles O32: R34's set holds at the start and every step keeps it; no address formed from a cell is negative. -/
theorem reachableCellsHoldBytesOrTopBytes : Obligations.ReachableCellsHoldBytesOrTopBytes := by
  intro prog s hs
  refine ⟨hs.cellValueInv, fun a => ⟨bswap64Int_toNat_ne_sentinel _, fun op3 => ⟨?_, ?_⟩⟩⟩
  · exact inStore_eq_false_iff (Int.natCast_nonneg _)
  · rw [indirectOffsetAddress_eq]
    exact inStore_eq_false_iff (Int.natCast_nonneg _)

/-! ### The codes of `status` and `cause` -/

/-- No two statuses share a code, and none has the reserved one (10 R25). -/
theorem Status.code_injective : Function.Injective Status.code := by
  intro a b h
  cases a <;> cases b <;> simp [Status.code] at h ⊢

theorem Status.code_ne_three (st : Status) : st.code ≠ 3#2 := by cases st <;> decide

/-- No two causes share a code, and none has the reserved one (10 R26). -/
theorem Cause.code_injective : Function.Injective Cause.code := by
  intro a b h
  cases a <;> cases b <;> simp [Cause.code] at h ⊢

theorem Cause.code_ne_three (c : Cause) : c.code ≠ 3#2 := by cases c <;> decide

theorem Status.ne_fail_iff (st : Status) : st ≠ .fail ↔ st = .run ∨ st = .done := by cases st <;> simp

/-- Settles O33: the codes tell the registers' values apart, and `cause` is the fault record every step keeps. -/
theorem causeCodeNamesTheFault : Obligations.CauseCodeNamesTheFault := by
  intro prog s hs
  obtain ⟨hnone, hunknown, hout⟩ := hs.faultRecordInv
  rw [hs.prog_eq] at hunknown hout
  refine ⟨Status.code_injective.eq_iff (b := .run), Status.code_injective.eq_iff (b := .done),
    Status.code_injective.eq_iff (b := .fail), s.status.code_ne_three, ?_, ?_, ?_, s.cause.code_ne_three⟩
  · exact (Cause.code_injective.eq_iff (b := .none)).trans (hnone.trans s.status.ne_fail_iff)
  · exact (Cause.code_injective.eq_iff (b := .unknownOpcode)).trans hunknown
  · exact (Cause.code_injective.eq_iff (b := .outOfRangeAddress)).trans hout

/-! ### Counting the steps of a run -/

/-- A run of `n + 1` steps is a step and a run of `n`. -/
theorem State.afterSteps_succ_eq_some {s t : State} {n : Nat} :
    s.afterSteps (n + 1) = some t ↔ ∃ u, step s = .next u ∧ u.afterSteps n = some t := by
  cases hs : step s <;> simp [State.afterSteps, hs]

/-- A run from an ended state has no steps. -/
theorem State.afterSteps_of_ended {s t : State} {n : Nat} (h : s.Ended) (ht : s.afterSteps n = some t) :
    n = 0 ∧ t = s := by
  cases n with
  | zero => exact ⟨rfl, (Option.some.inj ht).symm⟩
  | succ n => exact nomatch (State.afterSteps_succ_of_ended n h).symm.trans ht

/-- From a running state `pc` counts the steps, but for the one that ended the run (10 R23, R24). -/
theorem State.pc_of_afterSteps {s t : State} {n : Nat} (hrun : s.status = .run) (h : s.afterSteps n = some t) :
    (t.status = .run → t.pc = s.pc + n) ∧ (t.status ≠ .run → t.pc + 1 = s.pc + n) := by
  induction n generalizing s with
  | zero =>
    obtain rfl : s = t := Option.some.inj h
    exact ⟨fun _ => rfl, fun hended => absurd hrun hended⟩
  | succ n ih =>
    obtain ⟨u, hstep, hrest⟩ := State.afterSteps_succ_eq_some.1 h
    obtain ⟨-, hstays, hleaves⟩ := pcMovesOnlyOnRetirement s u hstep
    by_cases hu : u.status = .run
    · have hpc := hstays hu
      obtain ⟨htrun, htended⟩ := ih hu hrest
      exact ⟨fun ht => by have := htrun ht; omega, fun ht => by have := htended ht; omega⟩
    · obtain ⟨rfl, rfl⟩ := State.afterSteps_of_ended hu hrest
      obtain ⟨hpc, -⟩ := hleaves hu
      exact ⟨fun ht => absurd ht hu, fun _ => by omega⟩

/-- Settles O34: the count from `pc` 0. -/
theorem pcCountsRetiredInstructions : Obligations.PcCountsRetiredInstructions := by
  intro prog n t h
  simpa using State.pc_of_afterSteps (State.startRun_status prog) h

end Sys2Proof.Machine

/-!
SUPPORT. The host's side, request by request.
-/

namespace Sys2Proof.Machine

@[simp] theorem State.host_start (s : State) (prog : List Byte) :
    s.host (.start prog) = .ok (.taken, State.startRun prog) := rfl
@[simp] theorem State.host_reset (s : State) : s.host .reset = .ok (.taken, State.startRun s.prog) := rfl
@[simp] theorem State.host_readStatus (s : State) : s.host .readStatus = .ok (.statusCode s.status.code, s) := rfl
@[simp] theorem State.host_readCause (s : State) : s.host .readCause = .ok (.causeCode s.cause.code, s) := rfl
@[simp] theorem State.host_readPc (s : State) : s.host .readPc = .ok (.pcValue s.pc, s) := rfl

/-- The snapshot port tests `status` before it looks at a cell (70 R208; log 11). -/
theorem State.host_snapshot_of_not_done {s : State} (h : s.status ≠ .done) (first last : Int) :
    s.host (.snapshot first last) = .error .snapshotBeforeDone := by
  simp [State.host, State.snapshot, h]

/-- Settles O44: a snapshot read is refused, and the other requests do not look at the cells. -/
theorem cellsAreHiddenBeforeDone : Obligations.CellsAreHiddenBeforeDone := by
  intro s m q h
  cases q with
  | snapshot first last =>
    rw [State.host_snapshot_of_not_done h, State.host_snapshot_of_not_done (s := s.withM m) h]
  | start prog => rfl
  | reset => rfl
  | readStatus => rfl
  | readCause => rfl
  | readPc => rfl

/-- Settles O47: each request has one answer, and the codes are those of R25 and R26. -/
theorem hostReadsTheRegisters : Obligations.HostReadsTheRegisters := by
  intro s
  refine ⟨fun h => ?_, fun h => ?_, fun h => ?_, fun h => ?_, fun h => ?_, fun h => ?_, rfl, rfl, fun _ => rfl⟩
  all_goals simp [h, Status.code, Cause.code]

end Sys2Proof.Machine

/-!
SUPPORT. The stream and the cells are two spaces (20 R66).
-/

namespace Sys2Proof.Machine

/-- No instruction changes the stream: neither a cell write and retirement nor fault entry touches it (20 R66). -/
theorem exec_prog {i : Instr} {s t : State} (h : exec i s = .next t) : t.prog = s.prog := by
  obtain ⟨a, v, -, -, hretire⟩ | hraise := exec_cases i s
  · cases hretire.symm.trans h
    simp
  · cases hraise.symm.trans h
    simp

/-- Fetch looks at `pc` and the stream only, so no cell is ever the record fetched (20 R66). -/
@[simp] theorem State.fetch_withM (s : State) (m : Memory) : (s.withM m).fetch = s.fetch := rfl

/-- Settles O39: `exec` neither writes the stream nor reads it, and fetch does not read the cells. -/
theorem streamAndCellsAreDisjoint : Obligations.StreamAndCellsAreDisjoint :=
  ⟨fun _ _ _ p h => ⟨exec_prog h, exec_withProg p h⟩, State.fetch_withM⟩

end Sys2Proof.Machine

/-!
SUPPORT. The decoder and the encoder, each in one equation, and the 48-bit presentation of a record (30 R80 to R89).
-/

namespace Sys2Proof

/-! ### Decoding bytes -/

/-- Selection by the opcode byte and the record of an instruction say the same, so the bytes that decode to an
instruction are those it encodes to (30 R80, R86). -/
theorem decode_eq_ok_iff (bytes : List Byte) (i : Instr) : decode bytes = .ok i ↔ bytes = encode i := by
  simp only [decode_eq_ok, Record.toInstr_eq_some, exists_eq_right, encode]

@[simp] theorem decode_encode (i : Instr) : decode (encode i) = .ok i := (decode_eq_ok_iff _ i).2 rfl

/-- Settles O4: both directions of `decode_eq_ok_iff`. -/
theorem encodeAndDecodeAreInverse : Obligations.EncodeAndDecodeAreInverse :=
  ⟨decode_encode, fun bytes i h => ((decode_eq_ok_iff bytes i).1 h).symm⟩

/-- A list of another length is the bytes of no record (30 R83, R85; log 15). -/
theorem Record.ofBytes_of_length_ne {bytes : List Byte} (h : bytes.length ≠ 6) : Record.ofBytes bytes = none := by
  refine Option.eq_none_iff_forall_ne_some.2 fun r hr => h ?_
  rw [(Record.ofBytes_eq_some bytes r).1 hr]
  rfl

theorem decode_of_length_ne {bytes : List Byte} (h : bytes.length ≠ 6) :
    decode bytes = .error (.notARecord bytes.length) := by
  simp only [decode, Record.ofBytes_of_length_ne h]

theorem decode_bytes_of_toInstr {r : Record} {i : Instr} (h : r.toInstr = some i) : decode r.bytes = .ok i :=
  (decode_eq_ok _ i).2 ⟨r, rfl, h⟩

theorem decode_bytes_of_toInstr_none {r : Record} (h : r.toInstr = none) :
    decode r.bytes = .error (.unknownOpcode r.opcode) := by
  simp only [decode, Record.ofBytes_bytes, h]

/-- A rejection is no instruction: on a record the decoder answers what the opcode byte selects (30 R86, R88). -/
theorem toOption_decode_bytes (r : Record) : (decode r.bytes).toOption = r.toInstr := by
  cases h : r.toInstr with
  | none => rw [decode_bytes_of_toInstr_none h]; rfl
  | some i => rw [decode_bytes_of_toInstr h]; rfl

/-- A known opcode byte selects an instruction, whatever the other bytes (30 R86, R89). -/
theorem exists_toInstr_of_knownOpcode {r : Record} (h : Machine.KnownOpcode r.opcode) : ∃ i, r.toInstr = some i :=
  Option.ne_none_iff_exists'.1 fun hnone => (Machine.toInstr_eq_none_iff r).1 hnone h

/-- Settles O5: a list of another length is no record, and the opcode byte alone decides on a record. -/
theorem decodeIsTotalAndNamesRejections : Obligations.DecodeIsTotalAndNamesRejections := by
  refine ⟨fun _ => decode_of_length_ne, fun r => ⟨fun hknown => ?_, fun hunknown => ?_⟩⟩
  · obtain ⟨i, hi⟩ := exists_toInstr_of_knownOpcode hknown
    exact ⟨i, decode_bytes_of_toInstr hi, ((Record.toInstr_eq_some r i).1 hi).symm⟩
  · exact decode_bytes_of_toInstr_none ((Machine.toInstr_eq_none_iff r).2 hunknown)

/-- Settles O3: five of the records are encodings of the instructions named, and 63 is no opcode. -/
theorem decodeReadsTheSpecsWords : Obligations.DecodeReadsTheSpecsWords :=
  ⟨decode_encode (.set 7#8 3#8 0#8 0#8 0#8), decode_encode (.loadIndirectOffset 30#8 10#8 2#8 0#8 0#8),
    decode_encode (.storeIndirect 40#8 30#8 0#8 0#8 0#8), decode_encode (.byteSwap64 5#8 3#8 0#8 0#8 0#8),
    decode_encode (.set 255#8 255#8 255#8 255#8 255#8),
    decode_bytes_of_toInstr_none (r := ⟨0x63#8, 7#8, 3#8, 0#8, 0#8, 0#8⟩) rfl⟩

/-! ### The 48-bit presentation (30 R81) -/

/-- The slices of R81 take the joined word apart again. -/
@[simp] theorem Record.ofWord_word (r : Record) : Record.ofWord r.word = r := by
  obtain ⟨b0, b1, b2, b3, b4, b5⟩ := r
  simp only [Record.ofWord, Record.word, Record.mk.injEq]
  refine ⟨?_, ?_, ?_, ?_, ?_, ?_⟩
  -- Drop the bytes below the slice; the byte wanted is then the lowest one.
  all_goals repeat rw [BitVec.extractLsb'_append_eq_of_le (by decide)]
  · exact BitVec.extractLsb'_eq_self
  all_goals exact BitVec.extractLsb'_append_eq_right

/-- Numbered as the table numbers its rows, a record's word presents the record (log 5). -/
@[simp] theorem Record.ofTableWord_word (r : Record) : Record.ofTableWord 48 r.word.toNat = r := by
  rw [Record.ofTableWord, Nat.mod_eq_of_lt r.word.isLt, BitVec.ofNat_toNat, BitVec.setWidth_eq, Record.ofWord_word]

/-- The top byte of a record's word is its opcode. -/
theorem Record.extractLsb'_word_opcode (r : Record) : r.word.extractLsb' 40 8 = r.opcode :=
  congrArg Record.opcode r.ofWord_word

/-- The table's mask keeps the top byte of a word and clears the five below it (30 R86). -/
theorem and_opcodeMask (w : BitVec 48) : w &&& 0xFF0000000000#48 = w.extractLsb' 40 8 ++ 0#40 := by
  calc w &&& 0xFF0000000000#48
      = (w.extractLsb' 40 8 ++ w.extractLsb' 0 40) &&& (BitVec.allOnes 8 ++ 0#40) := by
        rw [BitVec.extractLsb'_append_extractLsb' (w := 8) (len := 40) (x := w)]; rfl
    _ = w.extractLsb' 40 8 ++ 0#40 := by
        rw [BitVec.and_append, BitVec.and_allOnes, BitVec.and_zero]

/-- A row whose match is `b` above 40 zero bits matches the records with opcode `b` (30 R86). -/
theorem Record.word_and_opcodeMask_eq_iff (r : Record) (b : Byte) :
    r.word &&& 0xFF0000000000#48 = b ++ 0#40 ↔ r.opcode = b := by
  rw [and_opcodeMask, BitVec.append_left_inj, r.extractLsb'_word_opcode]

/-- Settles O6: R81's slices are the record, so the masked word is its opcode byte and the decoder of table words
sees its bytes. -/
theorem tableWordsPresentRecords : Obligations.TableWordsPresentRecords := by
  intro r
  have hfields := Record.mk.inj r.ofWord_word.symm
  refine ⟨hfields, r.word_and_opcodeMask_eq_iff 98#8, r.word_and_opcodeMask_eq_iff 19#8,
    r.word_and_opcodeMask_eq_iff 5#8, r.word_and_opcodeMask_eq_iff 22#8, ?_⟩
  rw [decodeTableWord, r.ofTableWord_word, toOption_decode_bytes]

end Sys2Proof

/-!
SUPPORT. The disassembler as a relation, one constructor per form of a printed line (30 R91, R93).
-/

namespace Sys2Proof

/-! ### Well-formed lines (30 R91) -/

theorem le_255_iff_exists_byte (n : Nat) : n ≤ 255 ↔ ∃ b : Byte, b.toNat = n := by
  refine ⟨fun h => ⟨BitVec.ofNat 8 n, ?_⟩, fun ⟨b, hb⟩ => hb ▸ Nat.le_of_lt_succ b.isLt⟩
  rw [BitVec.toNat_ofNat, Nat.mod_eq_of_lt (by omega)]

/-- A line is well-formed when its operands are the values of bytes. -/
theorem AsmStmt.wellFormed_iff (a : AsmStmt) :
    a.wellFormed = true ↔ ∀ n ∈ a.operands, ∃ b : Byte, b.toNat = n := by
  simp only [AsmStmt.wellFormed, List.all_eq_true, decide_eq_true_eq, le_255_iff_exists_byte]

/-! ### The printing relation -/

/-- The opcode is known and the fields it ignores are all 0, so that the record has a line of R91 (30 R93). -/
def Record.HasMnemonicLine (r : Record) : Prop :=
  ((r.opcode = 98#8 ∨ r.opcode = 5#8 ∨ r.opcode = 22#8) ∧ r.op3 = 0#8 ∧ r.op4 = 0#8 ∧ r.op5 = 0#8) ∨
    (r.opcode = 19#8 ∧ r.op4 = 0#8 ∧ r.op5 = 0#8)

/-- The records and the lines they print as (30 R93). -/
inductive PrintsAs : Record → AsmStmt → Prop
  | set (a b : Byte) : PrintsAs ⟨98#8, a, b, 0#8, 0#8, 0#8⟩ (.set a.toNat b.toNat)
  | loadIndirectOffset (a b c : Byte) :
    PrintsAs ⟨19#8, a, b, c, 0#8, 0#8⟩ (.loadIndirectOffset a.toNat b.toNat c.toNat)
  | storeIndirect (a b : Byte) : PrintsAs ⟨5#8, a, b, 0#8, 0#8, 0#8⟩ (.storeIndirect a.toNat b.toNat)
  | byteSwap64 (a b : Byte) : PrintsAs ⟨22#8, a, b, 0#8, 0#8, 0#8⟩ (.byteSwap64 a.toNat b.toNat)
  | rawRecord (r : Record) : ¬r.HasMnemonicLine →
    PrintsAs r (.rawRecord r.opcode.toNat r.op1.toNat r.op2.toNat r.op3.toNat r.op4.toNat r.op5.toNat)

/-- What the disassembler answers is a line the record prints as. -/
theorem printsAs_disassemble (r : Record) : PrintsAs r (disassemble r) := by
  obtain ⟨b0, b1, b2, b3, b4, b5⟩ := r
  unfold disassemble
  split_ifs with hset hload hstore hswap
  · obtain ⟨rfl, rfl, rfl, rfl⟩ := hset
    exact .set b1 b2
  · obtain ⟨rfl, rfl, rfl⟩ := hload
    exact .loadIndirectOffset b1 b2 b3
  · obtain ⟨rfl, rfl, rfl, rfl⟩ := hstore
    exact .storeIndirect b1 b2
  · obtain ⟨rfl, rfl, rfl, rfl⟩ := hswap
    exact .byteSwap64 b1 b2
  · refine .rawRecord _ ?_
    rintro (⟨hop | hop | hop, hzero⟩ | hzero)
    · exact hset ⟨hop, hzero⟩
    · exact hstore ⟨hop, hzero⟩
    · exact hswap ⟨hop, hzero⟩
    · exact hload hzero

/-- Assembling a printed line writes the record back, zeros in the ignored fields (30 R89). -/
theorem PrintsAs.assemble_eq {r : Record} {a : AsmStmt} (h : PrintsAs r a) : assemble a = r.bytes := by
  cases h <;> simp [assemble, Record.bytes]

/-- The operands of a printed line are fields of the record. -/
theorem PrintsAs.wellFormed {r : Record} {a : AsmStmt} (h : PrintsAs r a) : a.wellFormed = true := by
  rw [AsmStmt.wellFormed_iff]
  cases h <;> simp [AsmStmt.operands]

/-- Exactly the records without a line of R91 print as `.rec`. -/
theorem PrintsAs.rawRecord_iff {r : Record} {a : AsmStmt} (h : PrintsAs r a) :
    (∃ b0 b1 b2 b3 b4 b5, a = .rawRecord b0 b1 b2 b3 b4 b5) ↔ ¬r.HasMnemonicLine := by
  cases h with
  | rawRecord _ hnot => exact ⟨fun _ => hnot, fun _ => ⟨_, _, _, _, _, _, rfl⟩⟩
  | _ => simp [Record.HasMnemonicLine]

/-- A record prints as no other line. -/
theorem PrintsAs.disassemble_eq {r : Record} {a : AsmStmt} (h : PrintsAs r a) : disassemble r = a := by
  cases h with
  | rawRecord _ hnot =>
    have hcases := hnot
    simp only [Record.HasMnemonicLine, or_and_right, not_or] at hcases
    obtain ⟨⟨hset, hstore, hswap⟩, hload⟩ := hcases
    rw [disassemble, if_neg hset, if_neg hload, if_neg hstore, if_neg hswap]
  | _ => simp [disassemble]

/-- Every well-formed line that is no directive is what some record prints as. -/
theorem AsmStmt.exists_printsAs {a : AsmStmt} (hwf : a.wellFormed = true)
    (hrec : ∀ b0 b1 b2 b3 b4 b5, a ≠ .rawRecord b0 b1 b2 b3 b4 b5) (hbyte : ∀ b, a ≠ .rawByte b) :
    ∃ r, PrintsAs r a := by
  rw [AsmStmt.wellFormed_iff] at hwf
  cases a with
  | set x y =>
    obtain ⟨⟨x, rfl⟩, ⟨y, rfl⟩⟩ := by simpa [AsmStmt.operands] using hwf
    exact ⟨_, .set x y⟩
  | loadIndirectOffset x y z =>
    obtain ⟨⟨x, rfl⟩, ⟨y, rfl⟩, ⟨z, rfl⟩⟩ := by simpa [AsmStmt.operands] using hwf
    exact ⟨_, .loadIndirectOffset x y z⟩
  | storeIndirect x y =>
    obtain ⟨⟨x, rfl⟩, ⟨y, rfl⟩⟩ := by simpa [AsmStmt.operands] using hwf
    exact ⟨_, .storeIndirect x y⟩
  | byteSwap64 x y =>
    obtain ⟨⟨x, rfl⟩, ⟨y, rfl⟩⟩ := by simpa [AsmStmt.operands] using hwf
    exact ⟨_, .byteSwap64 x y⟩
  | rawRecord b0 b1 b2 b3 b4 b5 => exact absurd rfl (hrec b0 b1 b2 b3 b4 b5)
  | rawByte b => exact absurd rfl (hbyte b)

/-- Settles O7: what a record prints as is read off its line; a mnemonic line is printed by some record, and its bytes
leave no other. -/
theorem disassemblyAndAssemblyAreInverse : Obligations.DisassemblyAndAssemblyAreInverse := by
  refine ⟨fun r => ⟨(printsAs_disassemble r).assemble_eq, (printsAs_disassemble r).wellFormed⟩, ?_,
    fun r => (printsAs_disassemble r).rawRecord_iff⟩
  intro a r hwf hrec hassemble
  have hbyte : ∀ b, a ≠ .rawByte b := by
    rintro b rfl
    simp [assemble, Record.bytes] at hassemble
  obtain ⟨r', hprints⟩ := AsmStmt.exists_printsAs hwf hrec hbyte
  obtain rfl : r' = r := Machine.Record.bytes_inj.1 (hprints.assemble_eq.symm.trans hassemble)
  exact hprints.disassemble_eq

end Sys2Proof

/-!
SUPPORT. The hardware does not look at the ignored fields or at the bytes after the last complete record (30 R89,
40 R111): a run under a stream with the same records is the same run.
-/

namespace Sys2Proof.Machine

/-! ### One record, one fetch, one step -/

/-- A record's effect is that of its opcode and the fields the opcode does not ignore (30 R88, R89). -/
theorem SameButIgnored.runRecord_eq {r r' : Record} (h : SameButIgnored r r') (s : State) :
    s.runRecord r = s.runRecord r' := by
  obtain ⟨hop, hknown, hop3⟩ := h
  by_cases hk : KnownOpcode r.opcode
  · obtain ⟨hop1, hop2⟩ := hknown hk
    obtain h98 | h19 | h5 | h22 := hk
    · rw [State.runRecord_of_set h98, State.runRecord_of_set (hop ▸ h98), hop1, hop2]
      rfl
    · rw [State.runRecord_of_load h19, State.runRecord_of_load (hop ▸ h19), hop1, hop2, hop3 h19]
      rfl
    · rw [State.runRecord_of_store h5, State.runRecord_of_store (hop ▸ h5), hop1, hop2]
      rfl
    · rw [State.runRecord_of_swap h22, State.runRecord_of_swap (hop ▸ h22), hop1, hop2]
      rfl
  · rw [State.runRecord_of_unknown hk, State.runRecord_of_unknown (hop ▸ hk)]

/-- Replacing the stream does not change what a record does: it sees the cells only (20 R66). -/
theorem State.runRecord_withProg {s t : State} {r : Record} (p : List Byte) (h : s.runRecord r = .next t) :
    (s.withProg p).runRecord r = .next (t.withProg p) := by
  by_cases hk : KnownOpcode r.opcode
  · obtain ⟨i, hi⟩ := exists_toInstr_of_knownOpcode hk
    rw [State.runRecord_of_toInstr hi] at h ⊢
    exact exec_withProg p h
  · cases (State.runRecord_of_unknown hk).symm.trans h
    exact State.runRecord_of_unknown hk

/-- Streams with the same records are short of a record at the same indices (40 R111). -/
theorem SameRecords.short_iff {p q : List Byte} (h : SameRecords p q) (k : Nat) :
    p.length < 6 * k + 6 ↔ q.length < 6 * k + 6 := by
  obtain ⟨hcount, -⟩ := h
  omega

/-- A step under a stream with the same records is the same step (30 R89, 40 R111). -/
theorem step_withProg_of_sameRecords {s t : State} {q : List Byte} (hsame : SameRecords s.prog q)
    (h : step s = .next t) : step (s.withProg q) = .next (t.withProg q) := by
  obtain ⟨hrun, -⟩ := step_cases h
  by_cases hshort : s.prog.length < 6 * s.pc + 6
  · cases (step_of_short hrun hshort).symm.trans h
    exact step_of_short (s := s.withProg q) hrun ((hsame.short_iff s.pc).1 hshort)
  · obtain ⟨r, hr⟩ := (short_or_recordAt s).resolve_left hshort
    obtain ⟨r', hr'⟩ := (short_or_recordAt (s.withProg q)).resolve_left (mt (hsame.short_iff s.pc).2 hshort)
    rw [step_of_recordAt (s := s.withProg q) hrun hr', ← (hsame.2 s.pc r r' hr hr').runRecord_eq]
    exact State.runRecord_withProg q ((step_of_recordAt hrun hr).symm.trans h)

/-! ### The run -/

/-- Dispatch of a record always has a next state (40 R110). -/
theorem State.exists_runRecord_eq_next (s : State) (r : Record) : ∃ t, s.runRecord r = .next t := by
  by_cases hk : KnownOpcode r.opcode
  · obtain ⟨i, hi⟩ := exists_toInstr_of_knownOpcode hk
    rw [State.runRecord_of_toInstr hi]
    obtain ⟨a, v, -, -, hretire⟩ | hraise := exec_cases i s
    · exact ⟨_, hretire⟩
    · exact ⟨_, hraise⟩
  · exact ⟨_, State.runRecord_of_unknown hk⟩

/-- A running state has a next state (40 R110). -/
theorem exists_step_of_run {s : State} (hrun : s.status = .run) : ∃ t, step s = .next t := by
  obtain hshort | ⟨r, hr⟩ := short_or_recordAt s
  · exact ⟨_, step_of_short hrun hshort⟩
  · exact step_of_recordAt hrun hr ▸ s.exists_runRecord_eq_next r

/-- Running under a stream with the same records reaches the same states, but for the stream they carry. -/
theorem State.runFor_withProg_of_sameRecords (n : Nat) {s : State} {q : List Byte} (hsame : SameRecords s.prog q) :
    State.runFor n (s.withProg q) = (State.runFor n s).withProg q := by
  induction n generalizing s with
  | zero => rfl
  | succ n ih =>
    by_cases hrun : s.status = .run
    · obtain ⟨t, ht⟩ := exists_step_of_run hrun
      rw [State.runFor_succ_of_next n ht, State.runFor_succ_of_next n (step_withProg_of_sameRecords hsame ht)]
      exact ih (step_prog ht ▸ hsame)
    · rw [State.runFor_of_ended _ hrun, State.runFor_of_ended (s := s.withProg q) _ hrun]

theorem stepBound_of_sameRecords {p q : List Byte} (h : SameRecords p q) : stepBound q = stepBound p :=
  congrArg (· + 1) h.1.symm

/-- Runs of streams with the same records end alike. -/
theorem runProgram_of_sameRecords {p q : List Byte} (h : SameRecords p q) :
    runProgram q = (runProgram p).withProg q := by
  calc runProgram q = State.runFor (stepBound q) ((State.startRun p).withProg q) := rfl
    _ = State.runFor (stepBound p) ((State.startRun p).withProg q) := by rw [stepBound_of_sameRecords h]
    _ = (runProgram p).withProg q := State.runFor_withProg_of_sameRecords _ h

/-- Settles O37: the two end states differ at most in the stream. -/
theorem ignoredBytesDoNotMatter : Obligations.IgnoredBytesDoNotMatter := by
  intro p q h
  rw [runProgram_of_sameRecords h]
  exact ⟨rfl, rfl, rfl, rfl⟩

end Sys2Proof.Machine

/-!
SUPPORT. The Execution Loop (40 R110 to R120): one step from RUN by what stands at `pc`, and a run from its start to
its one end.
-/

namespace Sys2Proof.Machine

/-! ### One step -/

/-- Settles O8: the decoder makes an instruction of exactly the record that the loop dispatches. -/
theorem stepRunsTheDecodedInstruction : Obligations.StepRunsTheDecodedInstruction := by
  intro s i hrun hdecode
  obtain ⟨r, hrec, hi⟩ := (decode_eq_ok _ i).1 hdecode
  rw [step_of_recordAt hrun hrec, State.runRecord_of_toInstr hi]

/-- Settles O9: the step is the halt, and fewer than six bytes after `pc` whole records leave `pc` as the quotient. -/
theorem shortRemainderHaltsTheRun : Obligations.ShortRemainderHaltsTheRun := by
  intro s hrun hshort
  refine ⟨s.halt, step_of_short hrun hshort, rfl, rfl, rfl, rfl, rfl, fun hin => ?_⟩
  rw [State.halt_pc]
  omega

/-- Settles O10: the step raises UnknownOpcode, and FAIL has no step. -/
theorem unknownOpcodeFaults : Obligations.UnknownOpcodeFaults := by
  intro s r hrun hrec hunknown
  exact ⟨s.raise .unknownOpcode, (step_of_recordAt hrun hrec).trans (State.runRecord_of_unknown hunknown),
    entersFault_raise s _, no_step_of_ended nofun⟩

/-! ### The end of a run is reached -/

/-- Running at most `n` steps takes some number of them, and all `n` where the run has not ended by then. -/
theorem State.exists_afterSteps_eq_runFor (n : Nat) (s : State) :
    ∃ k ≤ n, s.afterSteps k = some (State.runFor n s) ∧ ((State.runFor n s).status = .run → k = n) := by
  induction n generalizing s with
  | zero => exact ⟨0, le_rfl, rfl, fun _ => rfl⟩
  | succ n ih =>
    by_cases hrun : s.status = .run
    · obtain ⟨t, ht⟩ := exists_step_of_run hrun
      obtain ⟨k, hk, hsteps, hall⟩ := ih t
      rw [State.runFor_succ_of_next n ht]
      exact ⟨k + 1, by omega, (State.afterSteps_succ_of_next k ht).trans hsteps, fun h => by rw [hall h]⟩
    · rw [State.runFor_of_ended _ hrun]
      exact ⟨0, Nat.zero_le _, rfl, fun h => absurd h hrun⟩

theorem Reachable.of_afterSteps {prog : List Byte} {s t : State} {n : Nat} (hs : Reachable prog s)
    (h : s.afterSteps n = some t) : Reachable prog t := by
  induction n generalizing s with
  | zero => exact Option.some.inj h ▸ hs
  | succ n ih =>
    obtain ⟨u, hstep, hrest⟩ := State.afterSteps_succ_eq_some.1 h
    exact ih (hs.step hstep) hrest

theorem Reachable.pcInv {prog : List Byte} {s : State} (h : Reachable prog s) : PcInv s := by
  obtain ⟨-, -, -, hstart, -⟩ := resetMeetsTheInvariants prog (State.startRun prog) (.inl rfl)
  exact h.invariant hstart stepKeepsPcInStream

/-- `pc` is at most the number of complete records: that number in DONE, an index of one of them in FAIL
(10 R24, 40 R118). -/
theorem Reachable.pc_bounds {prog : List Byte} {s : State} (h : Reachable prog s) :
    s.pc ≤ prog.length / 6 ∧ (s.status = .done → s.pc = prog.length / 6) ∧
      (s.status = .fail → s.pc < prog.length / 6) := by
  obtain ⟨hin, hdone, hfail⟩ := h.pcInv
  rw [h.prog_eq, Config.recordBytes] at hin hdone hfail
  exact ⟨by omega, fun hs => by have := hdone hs; omega, fun hs => by have := hfail hs; omega⟩

/-- The run of a stream gets to `runProgram` within the bound of R119, and there it has ended: a run still going would
have retired more instructions than the stream has records. -/
theorem runProgram_end (prog : List Byte) :
    ∃ n ≤ stepBound prog, (State.startRun prog).afterSteps n = some (runProgram prog) ∧ (runProgram prog).Ended := by
  obtain ⟨n, hn, hsteps, hall⟩ := State.exists_afterSteps_eq_runFor (stepBound prog) (State.startRun prog)
  refine ⟨n, hn, hsteps, fun hrun => ?_⟩
  obtain ⟨hpc, -⟩ := (Reachable.start.of_afterSteps hsteps).pc_bounds
  have hcount := (pcCountsRetiredInstructions prog n _ hsteps).1 hrun
  have hbound : n = prog.length / 6 + 1 := hall hrun
  omega

theorem runProgram_ended (prog : List Byte) : (runProgram prog).Ended := by
  obtain ⟨n, -, -, hended⟩ := runProgram_end prog
  exact hended

theorem runProgram_reachable (prog : List Byte) : Reachable prog (runProgram prog) := by
  obtain ⟨n, -, hsteps, -⟩ := runProgram_end prog
  exact Reachable.start.of_afterSteps hsteps

/-- Settles O35: the run is at `runProgram` within the bound, and in DONE both `pc` and the count of steps are those of
the whole stream. -/
theorem everyRunEndsInTime : Obligations.EveryRunEndsInTime := by
  refine ⟨fun s => exists_step_of_run, fun prog => ?_⟩
  obtain ⟨n, hn, hsteps, hended⟩ := runProgram_end prog
  refine ⟨n, runProgram prog, hn, hsteps, hended, fun hdone => ?_⟩
  obtain ⟨-, hpc, -⟩ := (runProgram_reachable prog).pc_bounds
  have hcount := (pcCountsRetiredInstructions prog n _ hsteps).2 hended
  rw [← hcount, hpc hdone]

/-! ### The end of a run is unique -/

/-- From every state of a run, running on leads to the run's end (40 R120). -/
theorem Reachable.exists_runFor_eq_runProgram {prog : List Byte} {s : State} (h : Reachable prog s) :
    ∃ n, State.runFor n s = runProgram prog := by
  refine h.invariant (P := fun s => ∃ n, State.runFor n s = runProgram prog) ⟨stepBound prog, rfl⟩ ?_
  rintro s t ⟨n, hn⟩ hstep
  cases n with
  | zero =>
    obtain rfl : s = runProgram prog := hn
    exact absurd hstep (no_step_of_ended (runProgram_ended prog) t)
  | succ n => exact ⟨n, (State.runFor_succ_of_next n hstep).symm.trans hn⟩

theorem Reachable.eq_runProgram {prog : List Byte} {t : State} (h : Reachable prog t) (hended : t.Ended) :
    t = runProgram prog := by
  obtain ⟨n, hn⟩ := h.exists_runFor_eq_runProgram
  exact (State.runFor_of_ended n hended).symm.trans hn

/-- Settles O36: reached within the bound, and led to from every state of the run. -/
theorem runProgramIsTheUniqueEnd : Obligations.RunProgramIsTheUniqueEnd := by
  intro prog
  obtain ⟨-, hdone, hfail⟩ := (runProgram_reachable prog).pc_bounds
  exact ⟨runProgram_reachable prog, runProgram_ended prog, fun _ => Reachable.eq_runProgram, hdone, hfail⟩

/-! ### A run and the run of its first records -/

/-- A running state depends on the records before `pc` only: a stream that has the same ones reaches it too
(10 R29, 40 R112). -/
theorem Reachable.withProg_of_take_eq {p q : List Byte} {s : State} (h : Reachable p s) (hrun : s.status = .run)
    (htake : q.take (6 * s.pc) = p.take (6 * s.pc)) : Reachable q (s.withProg q) := by
  induction h with
  | start => exact .start
  | @step s t hs hstep ih =>
    obtain ⟨hsrun, hpc, -⟩ := pcMovesOnlyOnRetirement s t hstep
    rw [hpc hrun, Nat.mul_succ] at htake
    have hbefore : q.take (6 * s.pc) = p.take (6 * s.pc) := by
      simpa [List.take_take] using congrArg (List.take (6 * s.pc)) htake
    exact (ih hsrun hbefore).step (stepHasNoLookahead s t q (hs.prog_eq ▸ htake) hstep)

/-- The last step of an ended run started in RUN, at the same `pc` and with the same cells (10 R24). -/
theorem Reachable.exists_run_of_ended {prog : List Byte} {t : State} (h : Reachable prog t) (hended : t.Ended) :
    ∃ s, Reachable prog s ∧ s.status = .run ∧ t.pc = s.pc ∧ t.m = s.m := by
  cases h with
  | start => exact absurd rfl hended
  | @step s _ hs hstep =>
    obtain ⟨hrun, -, hkeeps⟩ := pcMovesOnlyOnRetirement s t hstep
    exact ⟨s, hs, hrun, hkeeps hended⟩

/-- Settles O38: the run of the shortened stream reaches the state from which the longer one entered its end, and halts
there, its stream being used up. -/
theorem recordsBeforeAFaultRetire : Obligations.RecordsBeforeAFaultRetire := by
  intro p _
  obtain ⟨s, hs, hrun, hpc, hm⟩ := (runProgram_reachable p).exists_run_of_ended (runProgram_ended p)
  rw [hpc, hm]
  have hreach := hs.withProg_of_take_eq (q := p.take (6 * s.pc)) hrun (by simp [List.take_take])
  have hshort : (p.take (6 * s.pc)).length < 6 * s.pc + 6 := by
    rw [List.length_take]
    omega
  have hend := (hreach.step (step_of_short hrun hshort)).eq_runProgram (nofun)
  rw [← hend]
  exact ⟨rfl, rfl, rfl⟩

end Sys2Proof.Machine

/-!
SUPPORT. The data-movement instructions (41_data_movement.md): what Set, LoadIndirectOffset and StoreIndirect leave in
the cells, and the effective address of a load.
-/

namespace Sys2Proof.Machine

/-! ### Words that fit in a byte (41 R130, R134) -/

/-- The bits 63 to 8 of a word are 0 exactly where its value is below 256. -/
theorem extractLsb'_upper_eq_zero_iff (v : Word) : v.extractLsb' 8 56 = 0#56 ↔ v.toNat < 256 := by
  have hv := v.isLt
  rw [← BitVec.toNat_inj, BitVec.extractLsb'_toNat, Nat.shiftRight_eq_div_pow, BitVec.toNat_zero]
  omega

theorem extractLsb'_lower_toNat (v : Word) : (v.extractLsb' 0 8).toNat = v.toNat % 256 := by
  rw [BitVec.extractLsb'_toNat, Nat.shiftRight_zero]

/-- The range test on the exact sum, read off the base's upper bits and the 8-bit addition (41 R134). -/
theorem loadAddress_lt_iff (base : Word) (op3 : Byte) :
    (base.extractLsb' 8 56 = 0#56 ∧ (base.extractLsb' 0 8).toNat + op3.toNat ≤ 255) ↔
      base.toNat + op3.toNat < 256 := by
  rw [extractLsb'_upper_eq_zero_iff, extractLsb'_lower_toNat]
  omega

/-- The immediate of Set is a byte with nothing above it (41 R130). -/
theorem immediate_toNat_lt (field : Byte) : (immediate field).toNat < 256 :=
  (zext64_toNat field).trans_lt field.isLt

/-! ### Writes that keep something of the store -/

/-- Writing a cell's own value back is no change of a canonical store (log 4). -/
theorem Memory.write_read_self {m : Memory} {a : Nat} (hm : Memory.wf m = true) (ha : a < Config.cellCount) :
    Memory.write m a (Memory.read m a) = m := by
  refine Memory.eq_of_read (Memory.wf_write _ hm ha) hm fun b => ?_
  rw [Memory.read_write]
  split
  · next hb => rw [hb]
  · rfl

/-- A cell that received its own old value leaves every cell reading as before, in any store. -/
theorem WritesOnly.read_eq_of_self {s t : State} {a : Nat} (h : WritesOnly s t a (Memory.read s.m a)) (b : Nat) :
    Memory.read t.m b = Memory.read s.m b := by
  by_cases hb : b = a
  · rw [hb, h.1]
  · exact h.2 b hb

/-- Every cell holds a value below 256 (41 R131 (e)). -/
def CellsBelow256 (m : Memory) : Prop := ∀ a, (Memory.read m a).toNat < 256

theorem CellsBelow256.write {m : Memory} {v : Word} (hm : CellsBelow256 m) (a : Nat) (hv : v.toNat < 256) :
    CellsBelow256 (Memory.write m a v) := by
  intro b
  rw [Memory.read_write]
  split
  · exact hv
  · exact hm b

/-! ### The statements -/

/-- Settles O24: the sum of two naturals is bounded by its terms' widths, and `loadAddress_lt_iff` decides its
range. -/
theorem loadAddressIsTheExactSum : Obligations.LoadAddressIsTheExactSum := by
  intro base op3
  have hbase := base.isLt
  have hop3 := op3.isLt
  rw [loadAddress_lt_iff, indirectOffsetAddress_eq]
  refine ⟨by omega, by omega, by omega, fun hin => ⟨(inStore_iff _).2 (by omega), ?_⟩, fun hout s => ?_⟩
  · rw [BitVec.toNat_add, extractLsb'_lower_toNat]
    omega
  · exact s.memRead_of_ge (Nat.le_of_not_lt hout)

/-- Settles O15: Set has one outcome, the write of its immediate. -/
theorem setStoresItsImmediate : Obligations.SetStoresItsImmediate := by
  intro op1 op2 op3 op4 op5 s
  obtain ⟨t, ht, hretires, hwrites⟩ :=
    exists_retires_writesOnly (s := s) (o := exec (.set op1 op2 op3 op4 op5) s) rfl
  exact ⟨decode_encode (.set op1 op2 op3 op4 op5), t, ht, hretires, _, hwrites, zext64_toNat op1,
    (extractLsb'_upper_eq_zero_iff _).2 (immediate_toNat_lt op1)⟩

/-- Settles O16: the range test on the address decides between the two outcomes. -/
theorem loadIndirectOffsetLoadsOrFaults : Obligations.LoadIndirectOffsetLoadsOrFaults := by
  rintro op1 op2 op3 op4 op5 s _ rfl
  refine ⟨decode_encode (.loadIndirectOffset op1 op2 op3 op4 op5), fun hin => ?_, fun hout => ?_⟩
  · exact exists_retires_writesOnly (execLoadIndirectOffset_of_inRange op1 op2 op3 op4 op5 s hin)
  · exact exists_entersFault (execLoadIndirectOffset_of_outOfRange op1 op2 op3 op4 op5 s hout)

/-- Settles O17: the range test on the pointer decides between the two outcomes. -/
theorem storeIndirectStoresOrFaults : Obligations.StoreIndirectStoresOrFaults := by
  rintro op1 op2 op3 op4 op5 s _ rfl
  refine ⟨decode_encode (.storeIndirect op1 op2 op3 op4 op5), fun hin => ?_, fun hout => ?_⟩
  · exact exists_retires_writesOnly (execStoreIndirect_of_inRange op1 op2 op3 op4 op5 s hin)
  · exact exists_entersFault (execStoreIndirect_of_outOfRange op1 op2 op3 op4 op5 s hout)

/-- A load whose address is known and in range copies the cell at that address (41 R133). -/
theorem exists_writesOnly_of_loadAddress (op1 op2 op3 op4 op5 : Byte) (s : State) {address : Nat}
    (haddr : (Memory.read s.m op2.toNat).toNat + op3.toNat = address) (hin : address < 256) :
    ∃ t, exec (.loadIndirectOffset op1 op2 op3 op4 op5) s = .next t ∧
      WritesOnly s t op1.toNat (Memory.read s.m address) := by
  obtain ⟨-, hloads, -⟩ := loadIndirectOffsetLoadsOrFaults op1 op2 op3 op4 op5 s address haddr.symm
  obtain ⟨t, ht, -, hwrites⟩ := hloads hin
  exact ⟨t, ht, hwrites⟩

/-- Settles O20: in each case the address is known and in range, and the load's one write says the rest. -/
theorem loadIndirectOffsetCornerCases : Obligations.LoadIndirectOffsetCornerCases := by
  intro op1 op2 op3 op4 op5 s
  refine ⟨fun hin => ?_, fun hzero => ?_, fun hin => ?_, fun hself => ?_⟩
  · exact exists_writesOnly_of_loadAddress op1 op2 0#8 op4 op5 s rfl hin
  · exact exists_writesOnly_of_loadAddress op1 op2 op3 op4 op5 s (by simp [hzero]) op3.isLt
  · obtain ⟨t, ht, hwritten, -⟩ := exists_writesOnly_of_loadAddress op2 op2 op3 op4 op5 s rfl hin
    exact ⟨t, ht, hwritten⟩
  · obtain ⟨t, ht, hwrites⟩ := exists_writesOnly_of_loadAddress op1 op2 op3 op4 op5 s hself op1.isLt
    exact ⟨t, ht, hwrites.read_eq_of_self⟩

/-- Settles O21: a pointer at its source is a field's value, so in range, and the cell it addresses gets its own value
back; with op1 = op2 the value stored is the pointer. -/
theorem storeIndirectCornerCases : Obligations.StoreIndirectCornerCases := by
  intro op1 op2 op3 op4 op5 s
  refine ⟨fun hwf hself => ?_, fun hin => ?_⟩
  · have hstore := execStoreIndirect_of_inRange op1 op2 op3 op4 op5 s (hself ▸ op2.isLt)
    rw [hself, Memory.write_read_self hwf op2.isLt] at hstore
    exact hstore
  · obtain ⟨-, hstores, -⟩ := storeIndirectStoresOrFaults op1 op1 op3 op4 op5 s _ rfl
    obtain ⟨t, ht, -, hwrites⟩ := hstores hin
    exact ⟨t, ht, hwrites⟩

/-- Settles O19: Set writes a byte, a load and a store copy a cell, and a fault writes nothing. -/
theorem onlyByteSwapMakesLargeValues : Obligations.OnlyByteSwapMakesLargeValues := by
  intro i s t hnoSwap (hcells : CellsBelow256 s.m) h
  change CellsBelow256 t.m
  cases i with
  | set op1 op2 op3 op4 op5 =>
    cases h
    exact hcells.write op2.toNat (immediate_toNat_lt op1)
  | loadIndirectOffset op1 op2 op3 op4 op5 =>
    by_cases hin : (Memory.read s.m op2.toNat).toNat + op3.toNat < 256
    · cases (execLoadIndirectOffset_of_inRange op1 op2 op3 op4 op5 s hin).symm.trans h
      exact hcells.write op1.toNat (hcells _)
    · cases (execLoadIndirectOffset_of_outOfRange op1 op2 op3 op4 op5 s (Nat.le_of_not_lt hin)).symm.trans h
      exact hcells
  | storeIndirect op1 op2 op3 op4 op5 =>
    cases (execStoreIndirect_of_inRange op1 op2 op3 op4 op5 s (hcells _)).symm.trans h
    exact hcells.write _ (hcells _)
  | byteSwap64 op1 op2 op3 op4 op5 => exact absurd rfl (hnoSwap op1 op2 op3 op4 op5)

end Sys2Proof.Machine

/-!
SUPPORT. ByteSwap64 (42_byteswap.md): the byte swap of a word read byte by byte and as a sum, its extension to all
integers, and what the instruction leaves in the cells.
-/

namespace Sys2Proof.Machine

/-! ### The bytes of a word (42 R150) -/

/-- A word is determined by its eight bytes. -/
theorem word_eq_of_bytes {v w : Word} (h : ∀ k, k < 8 → v.extractLsb' (8 * k) 8 = w.extractLsb' (8 * k) 8) :
    v = w := by
  refine BitVec.eq_of_getLsbD_eq fun j hj => ?_
  have hbyte := congrArg (·.getLsbD (j % 8)) (h (j / 8) (by omega))
  have hbit : j % 8 < 8 := Nat.mod_lt j (by decide)
  simpa only [BitVec.getLsbD_extractLsb', hbit, decide_true, Bool.true_and, Nat.div_add_mod] using hbyte

/-- The bytes change places and keep their bits. -/
theorem extractLsb'_bswap64 (v : Word) {k : Nat} (hk : k < 8) :
    (bswap64 v).extractLsb' (8 * k) 8 = v.extractLsb' (8 * (7 - k)) 8 := by
  refine BitVec.eq_of_getLsbD_eq fun i hi => ?_
  rw [BitVec.getLsbD_extractLsb', BitVec.getLsbD_extractLsb', bswap64_getLsbD v _ (by omega)]
  congr 2
  omega

/-- The value of two joined words is their weighted sum. -/
theorem append_toNat_eq_add {m n : Nat} (x : BitVec m) (y : BitVec n) :
    (x ++ y).toNat = x.toNat * 2 ^ n + y.toNat := by
  rw [BitVec.toNat_append, ← Nat.shiftLeft_add_eq_or_of_lt y.isLt, Nat.shiftLeft_eq]

/-- The sum of R150. -/
theorem bswap64_toNat (v : Word) :
    (bswap64 v).toNat =
      (v.extractLsb' 0 8).toNat * 2 ^ 56 + (v.extractLsb' 8 8).toNat * 2 ^ 48 +
      (v.extractLsb' 16 8).toNat * 2 ^ 40 + (v.extractLsb' 24 8).toNat * 2 ^ 32 +
      (v.extractLsb' 32 8).toNat * 2 ^ 24 + (v.extractLsb' 40 8).toNat * 2 ^ 16 +
      (v.extractLsb' 48 8).toNat * 2 ^ 8 + (v.extractLsb' 56 8).toNat := by
  simp only [bswap64, append_toNat_eq_add]
  omega

/-- Settles O25: the mirrored bytes, and the value of eight bytes joined; the worked value is computed. -/
theorem byteSwapMirrorsTheBytes : Obligations.ByteSwapMirrorsTheBytes :=
  ⟨by decide, fun v => ⟨fun _ => extractLsb'_bswap64 v, bswap64_toNat v⟩⟩

/-! ### The byte swap on all integers (42 R151) -/

/-- Inside the range the function on integers is the one on words (42 R153). -/
theorem bswap64Int_toNat (v : Word) : bswap64Int (v.toNat : Int) = ((bswap64 v).toNat : Int) := by
  have hrange : (0 : Int) ≤ v.toNat ∧ (v.toNat : Int) ≤ 2 ^ 64 - 1 := by omega
  rw [bswap64Int, if_pos hrange, BitVec.ofInt_natCast, BitVec.ofNat_toNat, BitVec.setWidth_eq]

theorem bswap64Int_of_outOfRange {v : Int} (h : v < 0 ∨ 2 ^ 64 - 1 < v) : bswap64Int v = -1 :=
  if_neg (by omega)

/-- The operand range is the set of a cell's values (10 R21). -/
theorem exists_word_toNat_eq {v : Int} (h0 : 0 ≤ v) (h1 : v ≤ 2 ^ 64 - 1) : ∃ w : Word, (w.toNat : Int) = v := by
  refine ⟨BitVec.ofNat 64 v.toNat, ?_⟩
  rw [BitVec.toNat_ofNat]
  omega

/-- Eight bits of a word by division, as R150 writes the bytes of an integer. -/
theorem extractLsb'_toNat_intCast (v : Word) (start : Nat) :
    ((v.extractLsb' start 8).toNat : Int) = (v.toNat : Int) / 2 ^ start % 2 ^ 8 := by
  rw [BitVec.extractLsb'_toNat, Nat.shiftRight_eq_div_pow]
  push_cast
  rfl

/-- The pattern of 64 ones is a byte palindrome. -/
theorem bswap64_allOnes : bswap64 (BitVec.allOnes 64) = BitVec.allOnes 64 := by decide

/-- Settles O26: inside the range the operand is a word's value, whose byte swap is R150's sum. -/
theorem byteSwapSentinelOutsideTheRange : Obligations.ByteSwapSentinelOutsideTheRange := by
  refine ⟨fun v h0 h1 => ?_, fun v => bswap64Int_of_outOfRange, ?_⟩
  · obtain ⟨w, rfl⟩ := exists_word_toNat_eq h0 h1
    rw [bswap64Int_toNat, bswap64_toNat]
    push_cast [extractLsb'_toNat_intCast]
    rw [Int.ediv_one]
  · have h := bswap64Int_toNat (BitVec.allOnes 64)
    rw [bswap64_allOnes] at h
    exact h

/-! ### Algebra of the byte swap (42 R152) -/

/-- The fixed points are the byte palindromes. -/
theorem bswap64_eq_self_iff (v : Word) :
    bswap64 v = v ↔ ∀ k, k < 8 → v.extractLsb' (8 * k) 8 = v.extractLsb' (8 * (7 - k)) 8 := by
  refine ⟨fun h k hk => ?_, fun h => word_eq_of_bytes fun k hk => ?_⟩
  · rw [← extractLsb'_bswap64 v hk, h]
  · rw [extractLsb'_bswap64 v hk, h k hk]

theorem bswap64_bijective : Function.Bijective bswap64 :=
  Function.Involutive.bijective bswap64_bswap64

/-- A byte at the top comes down again. -/
theorem bswap64_ofNat_topByte (b : Byte) : bswap64 (BitVec.ofNat 64 (b.toNat * 2 ^ 56)) = zext64 b := by
  rw [← bswap64_zext64_toNat, BitVec.ofNat_toNat, BitVec.setWidth_eq, bswap64_bswap64]

/-- Settles O27: the swap exchanges the order of 1 and 256; 0x8000 + 0x8000 carries from byte 1 into byte 2, the sum of
the swaps from byte 6 into byte 7. -/
theorem byteSwapAlgebra : Obligations.ByteSwapAlgebra := by
  refine ⟨bswap64_bswap64, bswap64_bijective, bswap64_eq_self_iff, ⟨by decide, bswap64_allOnes⟩,
    fun b => ⟨?_, ?_⟩, ⟨1#64, 256#64, by decide⟩, ⟨0x8000#64, 0x8000#64, by decide⟩, ?_⟩
  · rw [← immediate_eq_ofNat]
    exact bswap64_zext64_toNat b
  · rw [bswap64_ofNat_topByte, zext64_toNat]
  · rw [bswap64Int_of_outOfRange (v := 2 ^ 64) (by omega), bswap64Int_of_outOfRange (by omega)]

/-! ### The instruction (42 R155, R156) -/

/-- ByteSwap64 has one outcome: a direct write of the swapped cell, then retirement. -/
theorem exec_byteSwap64 (op1 op2 op3 op4 op5 : Byte) (s : State) :
    exec (.byteSwap64 op1 op2 op3 op4 op5) s =
      .next (s.withM (Memory.write s.m op1.toNat (bswap64 (Memory.read s.m op2.toNat)))).retire := rfl

/-- Settles O18: the one outcome writes one cell and retires. -/
theorem byteSwapStoresTheSwappedCell : Obligations.ByteSwapStoresTheSwappedCell :=
  fun op1 op2 op3 op4 op5 s =>
    ⟨decode_encode (.byteSwap64 op1 op2 op3 op4 op5),
      exists_retires_writesOnly (exec_byteSwap64 op1 op2 op3 op4 op5 s)⟩

/-- The destination's reading after ByteSwap64, whichever cell the source is. -/
theorem read_of_exec_byteSwap64 {op1 op2 op3 op4 op5 : Byte} {s t : State}
    (h : exec (.byteSwap64 op1 op2 op3 op4 op5) s = .next t) :
    Memory.read t.m op1.toNat = bswap64 (Memory.read s.m op2.toNat) := by
  cases (exec_byteSwap64 op1 op2 op3 op4 op5 s).symm.trans h
  exact (writesOnly_withM_write s op1.toNat _).1

/-- The later of two writes to a cell is the one that stands, in a canonical store (log 4). -/
theorem Memory.write_write_self {m : Memory} {a : Nat} (v w : Word) (hm : Memory.wf m = true)
    (ha : a < Config.cellCount) : Memory.write (Memory.write m a v) a w = Memory.write m a w := by
  refine Memory.eq_of_read (Memory.wf_write w (Memory.wf_write v hm ha) ha) (Memory.wf_write w hm ha) fun b => ?_
  by_cases hb : b = a <;> simp [hb]

/-- Settles O22: the byte swap is an involution, so the second swap in place writes the cell's first value over the
swapped one, and a swap back through another cell delivers the value the source had. -/
theorem byteSwapRoundTrips : Obligations.ByteSwapRoundTrips := by
  intro a b c op3 op4 op5 s t u
  refine ⟨fun hwf ht hu => ?_, fun ht hu => ?_⟩
  · have hswapped := read_of_exec_byteSwap64 ht
    cases (exec_byteSwap64 a a op3 op4 op5 s).symm.trans ht
    cases (exec_byteSwap64 a a op3 op4 op5 _).symm.trans hu
    refine State.ext_fields ?_ rfl rfl rfl rfl
    rw [hswapped, bswap64_bswap64]
    exact (Memory.write_write_self _ _ hwf a.isLt).trans (Memory.write_read_self hwf a.isLt)
  · rw [read_of_exec_byteSwap64 hu, read_of_exec_byteSwap64 ht, bswap64_bswap64]

end Sys2Proof.Machine

/-!
SUPPORT. Fault entry (60_exceptions.md R176): what a step into FAIL leaves behind.
-/

namespace Sys2Proof.Machine

/-- The snapshot port tests `status` before it looks at the range (70 R208; log 11). -/
theorem State.snapshot_of_not_done {s : State} (h : s.status ≠ .done) (first last : Int) :
    s.snapshot first last = .error .snapshotBeforeDone :=
  if_pos h

/-- Of the outcomes of a step from RUN only the two faults are in FAIL, and each is raised by the record at `pc`
(60 R170, R176). -/
theorem step_into_fail {s t : State} (h : step s = .next t) (hfail : t.status = .fail) :
    ∃ r : Record, recordAt s.prog s.pc = r.bytes ∧
      ((¬KnownOpcode r.opcode ∧ EntersFault s t .unknownOpcode) ∨
        (AddressOutOfRange s.m r ∧ EntersFault s t .outOfRangeAddress)) := by
  obtain ⟨hrun, ⟨r, i, a, v, -, -, -, -, rfl⟩ | ⟨-, rfl⟩ | ⟨r, hf, hunknown, rfl⟩ | ⟨r, hf, hout, rfl⟩⟩ :=
    step_outcomes h
  · exact nomatch hrun.symm.trans hfail
  · exact nomatch hfail
  · exact ⟨r, (s.fetch_eq_some r).1 hf, .inl ⟨hunknown, entersFault_raise s .unknownOpcode⟩⟩
  · exact ⟨r, (s.fetch_eq_some r).1 hf, .inr ⟨hout, entersFault_raise s .outOfRangeAddress⟩⟩

/-- Settles O14: FAIL is entered by a fault of the record at `pc` only; having ended, the state has no step, and not
being DONE, it has no snapshot. -/
theorem faultEntryIsPreciseAndFinal : Obligations.FaultEntryIsPreciseAndFinal := by
  intro s t h hfail
  have hended : t.Ended := fun hrun => nomatch hfail.symm.trans hrun
  have hnotDone : t.status ≠ .done := fun hdone => nomatch hfail.symm.trans hdone
  exact ⟨step_into_fail h hfail, no_step_of_ended hended,
    fun first last => ⟨_, State.snapshot_of_not_done hnotDone first last⟩⟩

end Sys2Proof.Machine

/-!
SUPPORT. The snapshot port (70 R206 to R209), and what a host request leaves of the state.
-/

namespace Sys2Proof.Machine

/-! ### The rows of a range (70 R206) -/

@[simp] theorem length_snapshotRows (m : Memory) (first count : Nat) :
    (snapshotRows m first count).length = count := by
  rw [snapshotRows, List.length_map, List.length_range']

theorem getElem?_snapshotRows (m : Memory) (first : Nat) {count k : Nat} (hk : k < count) :
    (snapshotRows m first count)[k]? = some (first + k, (Memory.read m (first + k)).toNat) := by
  rw [snapshotRows, List.getElem?_map, List.getElem?_range' hk, Nat.one_mul, Option.map_some]

/-- A row's value is its cell's content, whatever the range. -/
theorem eq_read_of_mem_snapshotRows {m : Memory} {first count a v : Nat} (h : (a, v) ∈ snapshotRows m first count) :
    v = (Memory.read m a).toNat := by
  obtain ⟨b, -, hb⟩ := List.mem_map.1 h
  cases hb
  rfl

/-! ### The answer to a snapshot read (70 R206, R208) -/

/-- The ranges a snapshot read may have (70 R206). -/
def LegalRange (first last : Int) : Prop := 0 ≤ first ∧ first ≤ last ∧ last ≤ 256

theorem State.snapshot_of_legal {s : State} {first last : Int} (hdone : s.status = .done)
    (hrange : LegalRange first last) :
    s.snapshot first last = .ok (snapshotRows s.m first.toNat (last - first).toNat) := by
  rw [State.snapshot, if_neg (not_not.2 hdone)]
  exact if_pos hrange

theorem State.snapshot_of_illegal {s : State} {first last : Int} (hdone : s.status = .done)
    (hrange : ¬LegalRange first last) : s.snapshot first last = .error .snapshotRange := by
  rw [State.snapshot, if_neg (not_not.2 hdone)]
  exact if_neg hrange

/-- The two grounds of refusal are the only ones (70 R208). -/
theorem State.exists_snapshot_eq_error_iff (s : State) (first last : Int) :
    (∃ r, s.snapshot first last = .error r) ↔ s.status ≠ .done ∨ ¬LegalRange first last := by
  by_cases hdone : s.status = .done
  · by_cases hrange : LegalRange first last
    · simp [State.snapshot_of_legal hdone hrange, hdone, hrange]
    · simp [State.snapshot_of_illegal hdone hrange, hrange]
  · simp [State.snapshot_of_not_done hdone, hdone]

/-- A read that answers has the rows of the store it was put to. -/
theorem State.exists_rows_of_snapshot_eq_ok {s : State} {first last : Int} {rows : List (Nat × Nat)}
    (h : s.snapshot first last = .ok rows) : ∃ f n, rows = snapshotRows s.m f n := by
  have hnotError : ¬∃ r, s.snapshot first last = .error r := by simp [h]
  rw [State.exists_snapshot_eq_error_iff, not_or, not_not, not_not] at hnotError
  obtain ⟨hdone, hrange⟩ := hnotError
  cases (State.snapshot_of_legal hdone hrange).symm.trans h
  exact ⟨_, _, rfl⟩

/-- The host's request is the port's read, with the state handed back as it was (70 R209). -/
theorem State.host_snapshot (s : State) (first last : Int) :
    s.host (.snapshot first last) = (s.snapshot first last).map fun rows => (.rows rows, s) := by
  simp only [State.host]
  cases s.snapshot first last <;> rfl

theorem State.host_snapshot_eq_error_iff (s : State) (first last : Int) (r : Refusal) :
    s.host (.snapshot first last) = .error r ↔ s.snapshot first last = .error r := by
  rw [State.host_snapshot]
  cases s.snapshot first last <;> simp [Except.map]

/-! ### What a request leaves (70 R203, R209) -/

/-- Only the two events that begin a run touch the state. -/
theorem State.eq_of_host_read {s t : State} {q : HostRequest} {reply : HostReply} (h : s.host q = .ok (reply, t))
    (hreset : q ≠ .reset) (hstart : ∀ prog, q ≠ .start prog) : t = s := by
  cases q with
  | start prog => exact absurd rfl (hstart prog)
  | reset => exact absurd rfl hreset
  | readStatus => cases h; rfl
  | readCause => cases h; rfl
  | readPc => cases h; rfl
  | snapshot first last =>
    rw [State.host_snapshot] at h
    generalize s.snapshot first last = answer at h
    cases answer with
    | error r => cases h
    | ok rows => cases h; rfl

/-! ### The statements -/

/-- Settles O41: a legal read answers with the range's rows, of which there are `last - first`. -/
theorem snapshotGivesTheRange : Obligations.SnapshotGivesTheRange := by
  intro s first last hdone h0 hle h256
  have hsnap := State.snapshot_of_legal hdone ⟨h0, hle, h256⟩
  refine ⟨_, hsnap, ?_, ?_, fun k hk => getElem?_snapshotRows s.m first.toNat (by omega)⟩
  · rw [State.host_snapshot, hsnap]
    rfl
  · rw [length_snapshotRows]
    omega

/-- Settles O42: the request is refused where the port refuses. -/
theorem snapshotRefusals : Obligations.SnapshotRefusals := by
  intro s first last
  simp only [State.host_snapshot_eq_error_iff, iff_self, and_true]
  exact s.exists_snapshot_eq_error_iff first last

/-- Settles O43: a snapshot request is a read, and each row's value is a function of the store and the cell. -/
theorem snapshotIsRepeatable : Obligations.SnapshotIsRepeatable := by
  intro s
  refine ⟨fun first last reply t h => State.eq_of_host_read h nofun nofun, ?_, fun hdone => ⟨fun f h0 h256 => ?_, ?_⟩⟩
  · intro f l f' l' rows rows' h h' a v v' hv hv'
    obtain ⟨_, _, rfl⟩ := State.exists_rows_of_snapshot_eq_ok h
    obtain ⟨_, _, rfl⟩ := State.exists_rows_of_snapshot_eq_ok h'
    exact (eq_read_of_mem_snapshotRows hv).trans (eq_read_of_mem_snapshotRows hv').symm
  · rw [State.snapshot_of_legal hdone ⟨h0, le_refl f, h256⟩, sub_self]
    rfl
  · exact ⟨_, State.snapshot_of_legal hdone ⟨le_refl 0, by decide, le_refl 256⟩, length_snapshotRows ..⟩

/-- Settles O45: reset and start each have one answer, the start of a run; every other request is a read. -/
theorem hostOnlyReadsOrRestarts : Obligations.HostOnlyReadsOrRestarts := by
  intro s t q reply h
  refine ⟨?_, ?_, State.eq_of_host_read h⟩
  · rintro rfl
    cases h
    exact ⟨rfl, rfl⟩
  · rintro prog rfl
    cases h
    exact ⟨rfl, rfl⟩

end Sys2Proof.Machine
